-- ==== Sys2Proof/Word.lean ====
section
/-! DEFINITION. The word types of the block: 32-bit host words, bytes, and the 6-bit bus status word. -/

namespace Sys2Proof

/-- A host register value or a command word (10_state.md R43). -/
abbrev Word := BitVec 32

/-- One byte of a buffer or of the bus-port data register (R28, R29, R35). -/
abbrev Byte := BitVec 8

/-- The bus-port status word `SR` (R31, R32). -/
abbrev StatusWord := BitVec 6

end Sys2Proof
end

