-- ==== Sys2Proof/Config.lean ====
section
/-! DEFINITION. What is fixed for one machine: the parameters of 00_scope.md R7 with their normative values, the
OPEN parameters of R8 as constants without a body, and the free values the environment supplies (the BUS oracle's
answers, R31, and the choice of the agent that moves, R6). Nothing in Lean can evaluate a constant without a body, so
a statement about one holds for every value it may have. -/

namespace Sys2Proof

/-- `ADDR_W` (R7). -/
abbrev Config.addrW : Nat := 7

/-- `TICK_W` (R7, R37). -/
abbrev Config.tickW : Nat := 32

/-- `TICK_MS`, the period of one tick in ms (R7). It enters no step, because the model has no time (R185, R247). -/
abbrev Config.tickMs : Nat := 1

/-- `PAIRS` (R7). -/
abbrev Config.pairs : Nat := 2

/-- A target address (R7, R27). -/
abbrev Addr := BitVec Config.addrW

/-- A tick count: `NOW`, `DEADLINE` (R7, R26, R37). -/
abbrev Tick := BitVec Config.tickW

/-- The `PAIRS` pin pairs, under R38's names. -/
inductive Pin where
  | pairA
  | pairB
  deriving DecidableEq, Repr, Inhabited

/-- The number of a pin pair (R38); `PAIRS` of them are numbered. -/
def Pin.number : Pin → Fin Config.pairs
  | .pairA => 0
  | .pairB => 1

/-- `MAX_WRITE` (R7). -/
abbrev Config.maxWrite : Nat := 124

/-- `MAX_READ` (R7). -/
abbrev Config.maxRead : Nat := 128

/-- `TIMEOUT_MS`, in ticks (R7, R186). -/
abbrev Config.timeoutMs : Tick := 50

/-- `MAX_HZ` (R7, R153). -/
abbrev Config.maxHz : Nat := 400000

/-- OPEN (R8): `LATCH_W` less one, so that `LATCH_W` is a natural of at least 1 (log entry 5). -/
opaque Config.latchExtra : Nat

/-- `LATCH_W` (R8). -/
def Config.latchW : Nat := Config.latchExtra + 1

/-- The captured bus-error status bits (R36). -/
abbrev LatchWord := BitVec Config.latchW

/-- OPEN (R8): the number of duty-cycle modes less one, so that `DutyMode` is finite and not empty (log entry 5). -/
opaque Config.dutyExtra : Nat

/-- The OPEN finite type `DutyMode`, up to the names of its values (R8, R40). -/
abbrev DutyMode := Fin (Config.dutyExtra + 1)

/-- OPEN: `DUTY_INIT` (R8). -/
opaque Config.dutyInit : DutyMode

/-- OPEN: `TICK_INIT` (R8). -/
opaque Config.tickInit : Tick

/-- OPEN: `PIN_INIT` (R8). -/
opaque Config.pinInit : Pin

/-- OPEN: the value of `HZ_INIT`, with its bound `MAX_HZ` in its type (R8). -/
opaque Config.hzOpen : Fin (Config.maxHz + 1)

/-- `HZ_INIT` as the 32-bit word `HZ` holds (R8, R39). -/
def Config.hzInit : Word := BitVec.ofNat 32 Config.hzOpen.val

/-- One HOST access to the host register space: a byte offset, a width in bytes and, for a write, the value
(`MemRead`, `MemWrite`: R13, R60, R61). Any offset and any width can be tried; R65 says which are refused. -/
inductive HostAccess where
  | read (off : Nat) (width : Nat)
  | write (off : Nat) (width : Nat) (v : Word)
  deriving DecidableEq, Repr, Inhabited

/-- One turn: which agent moves, and with what (R6). BUS has no turn of its own; it answers reads (R31) and raises
the error event that `busError` carries (R170). DESIGN CHOICE, safe: log entry 1. -/
inductive Turn where
  | host (access : HostAccess)
  | engine
  | tick
  | busError (s : LatchWord)
  deriving DecidableEq, Repr, Inhabited

/-- Free value: the `n`-th draw of which agent moves, where no turn is queued (R6, R212; log entry 1). -/
opaque Config.freeTurn : Nat → Turn

/-- Free value: the `n`-th draw of a `BusReadSR()` answer, where none is queued (R31; log entry 2). -/
opaque Config.freeSR : Nat → StatusWord

/-- Free value: the `n`-th draw of a `BusReadDR()` answer, where none is queued (R31; log entry 2). -/
opaque Config.freeDR : Nat → Byte

end Sys2Proof
end

