-- ==== Sys2Proof/Syntax.lean ====
section
/-! DEFINITION. The instructions: one constructor for each row of spec/opcode_table.json, the three host commands
(format CMD, 30_encoding.md R80–R84) and the fourteen sequencer micro-states (format SEQ, 10_state.md R21). -/

namespace Sys2Proof

/-- Every row of the opcode table, in its order. -/
inductive Instr where
  /-- EXECUTE with `ADDR`, `WLEN` and `RLEN` (R82). -/
  | execute (addr : Addr) (wlen : BitVec 8) (rlen : BitVec 8)
  /-- SELECT_PINS with `PAIR` (R83). -/
  | selectPins (pair : Pin)
  /-- SET_SPEED; its operand is the register `SPEED_ARG` (R84). -/
  | setSpeed
  | idle
  | waitFree
  | doStart
  | waitSb
  | doAddr
  | waitAddr
  | doTx
  | waitBtf
  | doAckSetup
  | waitRxne
  | doRxRead
  | doAckOff
  | doStop
  | doErrOff
  deriving DecidableEq, Repr

end Sys2Proof
end

