-- ==== Sys2Proof/WellFormed.lean ====
section
/-! DEFINITION. Which instructions the encoding admits: the length bounds of EXECUTE (30_encoding.md R82, R86).
Every other operand is legal at every value of its type ("It needs no range check", R82; R83). -/

namespace Sys2Proof

/-- The instruction has an encoding: `WLEN <= MAX_WRITE` and `RLEN <= MAX_READ` for EXECUTE (R82). -/
def Instr.wellFormed : Instr → Bool
  | .execute _ wlen rlen => decide (wlen.toNat ≤ Config.maxWrite) && decide (rlen.toNat ≤ Config.maxRead)
  | .selectPins _ => true
  | .setSpeed => true
  | .idle => true
  | .waitFree => true
  | .doStart => true
  | .waitSb => true
  | .doAddr => true
  | .waitAddr => true
  | .doTx => true
  | .waitBtf => true
  | .doAckSetup => true
  | .waitRxne => true
  | .doRxRead => true
  | .doAckOff => true
  | .doStop => true
  | .doErrOff => true

/-- `wellFormed` as a proposition. -/
abbrev Instr.WellFormed (i : Instr) : Prop := i.wellFormed = true

end Sys2Proof
end

