-- ==== Sys2Proof/Decode.lean ====
section
/-! DEFINITION. The encoding (30_encoding.md R80–R88): the sequencer codes, the decoder of a command word and of a
sequencer code, the encoder, and the numbering of spec/opcode_table.json. A command is one 32-bit word moved whole
(R67, R87), so no byte order enters; a micro-state is the 4-bit value held in `SEQ` (R21). -/

namespace Sys2Proof

/-- The codes of R21. -/
abbrev Seq.idle : BitVec 4 := 0
abbrev Seq.waitFree : BitVec 4 := 1
abbrev Seq.doStart : BitVec 4 := 2
abbrev Seq.waitSb : BitVec 4 := 3
abbrev Seq.doAddr : BitVec 4 := 4
abbrev Seq.waitAddr : BitVec 4 := 5
abbrev Seq.doTx : BitVec 4 := 6
abbrev Seq.waitBtf : BitVec 4 := 7
abbrev Seq.doAckSetup : BitVec 4 := 8
abbrev Seq.waitRxne : BitVec 4 := 9
abbrev Seq.doRxRead : BitVec 4 := 10
abbrev Seq.doAckOff : BitVec 4 := 11
abbrev Seq.doStop : BitVec 4 := 12
abbrev Seq.doErrOff : BitVec 4 := 13

/-- An encoded instruction: a command word written to `CMD` (R80) or a code held in `SEQ` (R21). -/
inductive Code where
  | cmd (w : Word)
  | seq (c : BitVec 4)
  deriving DecidableEq, Repr

/-- Why the decoder rejects: the cases of R86, and R88's codes 14 and 15. -/
inductive Reject where
  /-- `OP` is not 0x1, 0x2 or 0x3 (R86). -/
  | operation
  /-- A reserved bit of the command is not 0 (R86). -/
  | reservedBit
  /-- EXECUTE with `WLEN > MAX_WRITE` (R86). -/
  | writeLength
  /-- EXECUTE with `RLEN > MAX_READ` (R86). -/
  | readLength
  /-- `SEQ` holds 14 or 15 (R88). -/
  | sequencerCode
  deriving DecidableEq, Repr

/-- What the decoder answers. -/
inductive Decoded where
  | ok (i : Instr)
  | rejected (why : Reject)
  deriving DecidableEq, Repr

/-- `v[lo+n-1:lo]` (R11). -/
def field (v : Word) (lo n : Nat) : BitVec n := v.extractLsb' lo n

/-- 0 names `PairA` and 1 names `PairB` (R83). -/
def pinOfBit (b : BitVec 1) : Pin := if b = 0 then .pairA else .pairB

/-- The inverse of `pinOfBit` (R83, R38). -/
def bitOfPin (p : Pin) : BitVec 1 := BitVec.ofNat 1 p.number.val

/-- The EXECUTE row of R80: reserved bits, then value ranges, then the operands of R82. -/
def decodeExecute (v : Word) : Decoded :=
  if field v 11 1 ≠ 0 ∨ field v 28 4 ≠ 0 then .rejected .reservedBit
  else if Config.maxWrite < (field v 12 8).toNat then .rejected .writeLength
  else if Config.maxRead < (field v 20 8).toNat then .rejected .readLength
  else .ok (.execute (field v 4 Config.addrW) (field v 12 8) (field v 20 8))

/-- The SELECT_PINS row of R80. -/
def decodeSelectPins (v : Word) : Decoded :=
  if field v 5 27 ≠ 0 then .rejected .reservedBit else .ok (.selectPins (pinOfBit (field v 4 1)))

/-- The SET_SPEED row of R80. -/
def decodeSetSpeed (v : Word) : Decoded :=
  if field v 4 28 ≠ 0 then .rejected .reservedBit else .ok .setSpeed

/-- The decoder of a command word: `OP` selects, then the row's own checks (R80). -/
def decodeCmd (v : Word) : Decoded :=
  if field v 0 4 = 1 then decodeExecute v
  else if field v 0 4 = 2 then decodeSelectPins v
  else if field v 0 4 = 3 then decodeSetSpeed v
  else .rejected .operation

/-- The decoder of the micro-states (R21, R88). -/
def decodeSeq (c : BitVec 4) : Decoded :=
  match c.toNat with
  | 0 => .ok .idle
  | 1 => .ok .waitFree
  | 2 => .ok .doStart
  | 3 => .ok .waitSb
  | 4 => .ok .doAddr
  | 5 => .ok .waitAddr
  | 6 => .ok .doTx
  | 7 => .ok .waitBtf
  | 8 => .ok .doAckSetup
  | 9 => .ok .waitRxne
  | 10 => .ok .doRxRead
  | 11 => .ok .doAckOff
  | 12 => .ok .doStop
  | 13 => .ok .doErrOff
  | _ => .rejected .sequencerCode

/-- The decoder, total on both formats. -/
def decode : Code → Decoded
  | .cmd v => decodeCmd v
  | .seq c => decodeSeq c

/-- The encoder: each field at the place R81 gives it (the fields are disjoint, R125), and R21's codes. -/
def encode : Instr → Code
  | .execute addr wlen rlen =>
    .cmd (BitVec.ofNat 32 (rlen.toNat * 2 ^ 20 + wlen.toNat * 2 ^ 12 + addr.toNat * 2 ^ 4 + 0x1))
  | .selectPins pair => .cmd (BitVec.ofNat 32 ((bitOfPin pair).toNat * 2 ^ 4 + 0x2))
  | .setSpeed => .cmd 0x3
  | .idle => .seq Seq.idle
  | .waitFree => .seq Seq.waitFree
  | .doStart => .seq Seq.doStart
  | .waitSb => .seq Seq.waitSb
  | .doAddr => .seq Seq.doAddr
  | .waitAddr => .seq Seq.waitAddr
  | .doTx => .seq Seq.doTx
  | .waitBtf => .seq Seq.waitBtf
  | .doAckSetup => .seq Seq.doAckSetup
  | .waitRxne => .seq Seq.waitRxne
  | .doRxRead => .seq Seq.doRxRead
  | .doAckOff => .seq Seq.doAckOff
  | .doStop => .seq Seq.doStop
  | .doErrOff => .seq Seq.doErrOff

/-- The accepted instruction, if the decoder accepts. -/
def Decoded.instr? : Decoded → Option Instr
  | .ok i => some i
  | .rejected _ => none

/-- The code a row of spec/opcode_table.json stands for: a row of at most one byte is a `SEQ` row, a longer one a
`CMD` row (the table's "format"); a `SEQ` row of more than four bits in use is no code (log entry 9). -/
def codeOfTableWord (nbits w : Nat) : Option Code :=
  if nbits ≤ 8 then (if w < 16 then some (.seq (BitVec.ofNat 4 w)) else none)
  else if w < 2 ^ 32 then some (.cmd (BitVec.ofNat 32 w)) else none

/-- The host's question: what the decoder reads from a table row's bits. -/
def decodeTableWord (nbits w : Nat) : Option Instr :=
  match codeOfTableWord nbits w with
  | some c => (decode c).instr?
  | none => none

end Sys2Proof
end

