-- ==== Sys2Proof/Machine/State.lean ====
section
/-! DEFINITION. The state of the block as plain data (10_state.md R20–R47), the reasons a step stops, and the state
after reset (R48, R231). -/

namespace Sys2Proof.Machine

open Sys2Proof

/-- `PH` (R23): the write phase (0) or the read phase (1). -/
inductive Phase where
  | W
  | R
  deriving DecidableEq, Repr

/-- The eight codes of R85, which `RESP`, `RESULT` and `OUTCOME` hold. -/
inductive ResCode where
  | ok
  | timeout
  | addressNack
  | dataNack
  | configError
  | busy
  | accepted
  | none
  deriving DecidableEq, Repr

/-- The fault reasons of R206, a closed list: what the set `FAULT` holds (R45). -/
inductive Reason where
  | illegalCommand
  | badHostAccess
  | configWhileActive
  | hostWriteWhileActive
  | hostReadWhileActive
  | rbufInvalid
  | wbufUnwritten
  | badSeq
  deriving DecidableEq, Repr

/-- Which kind of byte a write of `DR` transmits (R35). -/
inductive TxKind where
  | addr
  | data
  deriving DecidableEq, Repr

/-- The event kinds of R47. -/
inductive Event where
  | reinit (pin : Pin) (hz : Word) (duty : DutyMode)
  | accept (addr : Addr) (wlen rlen : BitVec 8) (pin : Pin)
  | sr (v : StatusWord)
  | start
  | tx (kind : TxKind) (b : Byte)
  | ack (v : Bool)
  | rx (b : Byte)
  | stop
  | errie (v : Bool)
  | errlatch (s : LatchWord)
  | done (code : ResCode)
  deriving DecidableEq, Repr

/-- A buffer: the written cells as (index, byte) pairs, indices strictly rising; an index that is not listed holds
`⊥` (R28, R29; log entry 8). -/
abbrev Memory := List Host.Cell

/-- Why a machine stops with a fault: R206's fault-kind reasons and no other. The step that faults records
its reason in `FAULT` and is a next state (R205); every LATER step stops with the recorded reason, because no agent
steps while `FAULT` is not empty (log entry 4). -/
inductive Fault where
  /-- Raised by SELECT_PINS or SET_SPEED while `BUSY = 1` (R150). Safe: the source calls the state unspecified. -/
  | configWhileActive
  /-- Raised by a HOST write of `WBUF[i]` while `BUSY = 1` (R63). Safe: the model stops. -/
  | hostWriteWhileActive
  /-- Raised by a HOST read of `RBUF[i]` while `BUSY = 1` (R64). Safe: the model stops. -/
  | hostReadWhileActive
  /-- Raised by a HOST read of `RBUF[i]` holding `⊥` (R64). Safe: the model stops. -/
  | rbufInvalid
  /-- Raised by DO_TX (R115) or a HOST read of `WBUF[i]` (R60) where the cell holds `⊥`. Safe: the model stops. -/
  | wbufUnwritten
  /-- Raised by an ENGINE step with `SEQ` 14 or 15 (R88). Safe: unreachable from reset. -/
  | badSeq
  deriving DecidableEq, Repr

/-- Why a machine stops with a refusal: R206's refusal-kind reasons, recorded and treated like faults (log entry 4). -/
inductive Refusal where
  /-- Raised by a HOST write of an illegal word to `CMD` (R80, R86). Safe: the model stops. -/
  | illegalCommand
  /-- Raised by a HOST access that is unmapped, not 4 bytes wide or not 4-byte aligned (R65). Safe: the model stops. -/
  | badHostAccess
  /-- An instruction of the table that has no meaning in the model. No arm of exec answers it. Safe. -/
  | notModelled (mnemonic : String)
  deriving DecidableEq, Repr

/-- Every piece of state R20 lists, and the model's own fields for what the environment supplies and receives. -/
structure State where
  /-- `SEQ`, the sequencer's micro-state, the program-counter analogue (R21). -/
  seq : BitVec 4
  /-- `PH` (R23). -/
  ph : Phase
  /-- `IDX` (R24). -/
  idx : BitVec 8
  /-- `OUTCOME` (R25). -/
  outcome : ResCode
  /-- `DEADLINE` (R26). -/
  deadline : Tick
  /-- `REQ_ADDR` (R27). -/
  reqAddr : Addr
  /-- `REQ_WLEN` (R27). -/
  reqWlen : BitVec 8
  /-- `REQ_RLEN` (R27). -/
  reqRlen : BitVec 8
  /-- `WBUF` (R28). -/
  wbuf : Memory
  /-- `RBUF` (R29). -/
  rbuf : Memory
  /-- `RESP` (R30). -/
  resp : ResCode
  /-- `RESULT` (R30). -/
  result : ResCode
  /-- `CR_ACK` (R33, R34). -/
  crAck : Bool
  /-- `CR_ERRIE` (R33, R34). -/
  crErrie : Bool
  /-- `LATCH_SET` (R36). -/
  latchSet : Bool
  /-- `LATCH_BITS` (R36, R178). -/
  latchBits : LatchWord
  /-- `NOW` (R37). -/
  now : Tick
  /-- `PIN` (R38). -/
  pin : Pin
  /-- `HZ` (R39). -/
  hz : Word
  /-- `DUTY` (R40). -/
  duty : DutyMode
  /-- `SPEED_ARG` (R42). -/
  speedArg : Word
  /-- `FAULT`, a set: a list with no repeats (R45). -/
  fault : List Reason
  /-- `HIST` (R46). -/
  hist : List Event
  /-- The model's own: the turns still to be taken, first one first (log entry 1). -/
  agenda : List Turn
  /-- The model's own: the BUS's next `BusReadSR()` answers (log entry 2). -/
  srIn : List StatusWord
  /-- The model's own: the BUS's next `BusReadDR()` answers (log entry 2). -/
  drIn : List Byte
  /-- The model's own: how many free values have been drawn (log entry 2). -/
  draws : Nat
  /-- The model's own: the values HOST's reads have returned, in order (log entry 10). -/
  returned : List Word
  deriving DecidableEq, Repr

/-- The table of R48, with the startup reinit of R231; the model's own fields are empty (log entry 3). -/
def State.reset : State where
  seq := Seq.idle
  ph := .W
  idx := 0
  outcome := .none
  deadline := 0
  reqAddr := 0
  reqWlen := 0
  reqRlen := 0
  wbuf := []
  rbuf := []
  resp := .none
  result := .none
  crAck := false
  crErrie := false
  latchSet := false
  latchBits := 0
  now := Config.tickInit
  pin := Config.pinInit
  hz := Config.hzInit
  duty := Config.dutyInit
  speedArg := 0
  fault := []
  hist := [.reinit Config.pinInit Config.hzInit Config.dutyInit]
  agenda := []
  srIn := []
  drIn := []
  draws := 0
  returned := []

end Sys2Proof.Machine
end

