-- ==== Sys2Proof/Machine/Flags.lean ====
section
/-! DEFINITION. Every flag and comparison the spec gives: the bits of `SR` (10_state.md R32), `BUSY` and `DONE` (R30),
the pin modes (R41), the poll's error test (40_transaction_engine.md R104) and the deadline comparator
(43_timeout_watchdog.md R188). -/

namespace Sys2Proof.Machine

open Sys2Proof

/-- `SR[0]`, `BUSY`: "bus-busy flag" (R32). -/
def srBusy (sr : StatusWord) : Bool := sr.getLsbD 0

/-- `SR[1]`, `SB`: "start-acknowledged" (R32). -/
def srSb (sr : StatusWord) : Bool := sr.getLsbD 1

/-- `SR[2]`, `ADDR`: "address-acknowledged" (R32). -/
def srAddr (sr : StatusWord) : Bool := sr.getLsbD 2

/-- `SR[3]`, `BTF`: "byte-transfer-complete" (R32). -/
def srBtf (sr : StatusWord) : Bool := sr.getLsbD 3

/-- `SR[4]`, `RXNE`: "receive-buffer-not-empty" (R32). -/
def srRxne (sr : StatusWord) : Bool := sr.getLsbD 4

/-- `SR[5]`, `NACK`, in the address poll and in the data polls (R32). -/
def srNack (sr : StatusWord) : Bool := sr.getLsbD 5

/-- `BUSY = (SEQ != IDLE)` (R30). -/
def isBusy (s : State) : Bool := decide (s.seq ≠ Seq.idle)

/-- `DONE = (SEQ = IDLE and RESULT != NONE)` (R30). -/
def isDone (s : State) : Bool := decide (s.seq = Seq.idle ∧ s.result ≠ .none)

/-- `timed_out()`: `sint_32(NOW - DEADLINE) > 0`, the difference mod 2^32 (R188). -/
def timedOut (s : State) : Bool := decide (0 < (s.now - s.deadline).toInt)

/-- The error test of a poll that has one: `sr.NACK = 1 or LATCH_SET = 1` (R104). -/
def pollError (sr : StatusWord) (s : State) : Bool := srNack sr || s.latchSet

/-- The two modes of a pin pair (R41). -/
inductive PinMode where
  | afOpenDrain
  | input
  deriving DecidableEq, Repr

/-- `PINMODE(p)`: alternate function, open-drain for the selected pair; plain digital input for the other (R41, R152). -/
def pinMode (s : State) (p : Pin) : PinMode := if p = s.pin then .afOpenDrain else .input

end Sys2Proof.Machine
end

