-- ==== Sys2Proof/Machine/Operands.lean ====
section
/-! DEFINITION. Every operand form the spec gives and every code a register shows: the address byte
(40_transaction_engine.md R113), the phase the accept step chooses (R106), the deadline (R101), the result codes
(30_encoding.md R85), and the reasons a stopped machine answers with (60_exceptions.md R206). -/

namespace Sys2Proof.Machine

open Sys2Proof

/-- The number of a result code (R85). -/
def codeBits : ResCode → BitVec 3
  | .ok => 0
  | .timeout => 1
  | .addressNack => 2
  | .dataNack => 3
  | .configError => 4
  | .busy => 5
  | .accepted => 6
  | .none => 7

/-- `rw`: 0 in the write phase, 1 in the read phase (R69, R113). -/
def rwBit : Phase → BitVec 1
  | .W => 0
  | .R => 1

/-- The address byte `(REQ_ADDR << 1) | rw`, 8 bits (R113). The place of the R/W bit is the spec's own general knowledge
(log entry 17). -/
def addressByte (addr : Addr) (ph : Phase) : Byte := (addr.zeroExtend 8 <<< 1) ||| (rwBit ph).zeroExtend 8

/-- The phase an accepted EXECUTE starts with (R106). -/
def firstPhase (wlen rlen : BitVec 8) : Phase := if 0 < wlen.toNat ∨ rlen.toNat = 0 then .W else .R

/-- The deadline of a transaction accepted at `now`, mod 2^32 (R101, R186). -/
def deadlineAt (now : Tick) : Tick := now + Config.timeoutMs

/-- Stop the machine under a recorded reason: a refusal-kind reason refuses, the others fault (R206). -/
def stoppedBy : Reason → Host.Outcome State Fault Refusal
  | .illegalCommand => .refused .illegalCommand
  | .badHostAccess => .refused .badHostAccess
  | .configWhileActive => .fault .configWhileActive
  | .hostWriteWhileActive => .fault .hostWriteWhileActive
  | .hostReadWhileActive => .fault .hostReadWhileActive
  | .rbufInvalid => .fault .rbufInvalid
  | .wbufUnwritten => .fault .wbufUnwritten
  | .badSeq => .fault .badSeq

end Sys2Proof.Machine
end

