-- ==== Sys2Proof/Machine/Ops.lean ====
section
/-! DEFINITION. The named operations every meaning is written from: the buffers (10_state.md R28, R29), the bus port
(R31–R35), raising a model fault (60_exceptions.md R205), the abort entry `finish` and the return path
(40_transaction_engine.md R103, R122), the poll discipline (R104), the reinit (41_pin_speed_config.md R156) and the
choice of the agent that moves (00_scope.md R6). -/

namespace Sys2Proof.Machine

open Sys2Proof

/-- The byte at index `a`, or nothing where the cell holds `⊥` (R28, R29). -/
def Memory.read : Memory → Nat → Option Byte
  | [], _ => none
  | c :: m, a => if c.1 = a then some c.2 else Memory.read m a

/-- Write a byte at index `a`, keeping the indices rising. -/
def Memory.write : Memory → Nat → Byte → Memory
  | [], a, b => [(a, b)]
  | c :: m, a, b =>
    if a < c.1 then (a, b) :: c :: m
    else if c.1 = a then (a, b) :: m
    else c :: Memory.write m a b

/-- The byte in cell `a` of a buffer of `size` cells; nothing where the cell holds `⊥` or there is no such cell (R28,
R29; log entry 7). -/
def Memory.cell (size : Nat) (m : Memory) (a : Nat) : Option Byte := if a < size then Memory.read m a else none

/-- Store a byte in cell `a` of a buffer of `size` cells; where there is no such cell nothing is stored (R29; log
entry 7). -/
def Memory.store (size : Nat) (m : Memory) (a : Nat) (b : Byte) : Memory :=
  if a < size then Memory.write m a b else m

/-- All indices of the list are above `lo`, rising, and below `size`. -/
def Memory.risesFrom (size : Nat) : Nat → Memory → Bool
  | _, [] => true
  | lo, c :: m => decide (lo ≤ c.1) && decide (c.1 < size) && Memory.risesFrom size (c.1 + 1) m

/-- The canonical form of a buffer of `size` cells: indices strictly rising and below `size`. -/
def Memory.wf (size : Nat) (m : Memory) : Bool := Memory.risesFrom size 0 m

/-- No agent has a step while `FAULT` is not empty (R45, R205): the machine stops under the recorded reason. -/
def live (s : State) (act : Host.Outcome State Fault Refusal) : Host.Outcome State Fault Refusal :=
  match s.fault with
  | [] => act
  | r :: _ => stoppedBy r

/-- `raise Fault(reason)`: the step adds its reason to `FAULT` and makes none of its other writes (R205). -/
def raise (r : Reason) (s : State) : State := { s with fault := s.fault.insert r }

/-- Append an event to `HIST` (R46), the record of `BusEmit` (R13). -/
def emit (e : Event) (s : State) : State := { s with hist := s.hist ++ [e] }

/-- `SEQ <- c` (R13). -/
def goto (c : BitVec 4) (s : State) : State := { s with seq := c }

/-- The abort entry, which every classified exit uses: `OUTCOME <- code; SEQ <- DO_STOP` (R103, R214). -/
def finish (code : ResCode) (s : State) : State := { s with outcome := code, seq := Seq.doStop }

/-- The BUS's answer to the next `BusReadSR()`: any 6-bit value (R31; log entry 2). -/
def nextSR (s : State) : StatusWord :=
  match s.srIn with
  | v :: _ => v
  | [] => Config.freeSR s.draws

/-- The BUS's answer to the next `BusReadDR()`: any byte (R31; log entry 2). -/
def nextDR (s : State) : Byte :=
  match s.drIn with
  | b :: _ => b
  | [] => Config.freeDR s.draws

/-- `BusReadSR()`: the answer is taken from the BUS and recorded as `EV_SR` (R31). -/
def sampleSR (s : State) : State :=
  { s with
    srIn := s.srIn.tail
    draws := s.draws + (if s.srIn.isEmpty then 1 else 0)
    hist := s.hist ++ [.sr (nextSR s)] }

/-- `BusReadDR()`: the answer is taken from the BUS and recorded as `EV_RX` (R31). -/
def sampleDR (s : State) : State :=
  { s with
    drIn := s.drIn.tail
    draws := s.draws + (if s.drIn.isEmpty then 1 else 0)
    hist := s.hist ++ [.rx (nextDR s)] }

/-- The last three branches of a poll, after its error test: success, timeout, stay (R104). -/
def settle (met : Bool) (advance : State → State) (s : State) : State :=
  if met then advance s
  else if timedOut s then finish .timeout s
  else s

/-- One iteration of a poll without an error test (R104, R105: `WAIT_FREE`, `WAIT_SB`). -/
def poll (met : StatusWord → Bool) (advance : State → State) (s : State) : State :=
  settle (met (nextSR s)) advance (sampleSR s)

/-- One iteration of a poll with an error test: the error wins, then success, then timeout (R104, R105, R211). -/
def pollOrFail (code : ResCode) (met : StatusWord → Bool) (advance : State → State) (s : State) : State :=
  if pollError (nextSR s) s then finish code (sampleSR s)
  else settle (met (nextSR s)) advance (sampleSR s)

/-- `reinit()` (R156): `CR_ACK` and `CR_ERRIE` are cleared and `EV_REINIT` is recorded. -/
def reinit (s : State) : State :=
  { s with
    crAck := false
    crErrie := false
    hist := s.hist ++ [.reinit s.pin s.hz s.duty] }

/-- The bus-error handler's capture (R171): an interrupt entry that saves nothing (R215). -/
def captureError (bits : LatchWord) (s : State) : State :=
  { s with
    latchBits := bits
    latchSet := true
    crErrie := false
    hist := s.hist ++ [.errlatch bits, .errie false] }

/-- The turn that is taken next: the head of the agenda, or a free draw where the agenda is empty (log entry 1). -/
def nextTurn (s : State) : Turn :=
  match s.agenda with
  | t :: _ => t
  | [] => Config.freeTurn s.draws

/-- The state once that turn is taken off. -/
def takeTurn (s : State) : State :=
  { s with
    agenda := s.agenda.tail
    draws := s.draws + (if s.agenda.isEmpty then 1 else 0) }

end Sys2Proof.Machine
end

