-- ==== Sys2Proof/Machine/AddressPhase.lean ====
section
/-! DEFINITION. The micro-states of the bus-busy wait, START and the address (40_transaction_engine.md R110–R114), and
`IDLE` (10_state.md R21). A meaning is the micro-state's action; the step calls the one `SEQ` holds (R88, R100). -/

namespace Sys2Proof.Machine

open Sys2Proof

/-- IDLE: "no ENGINE step is enabled" (R21), so an ENGINE turn changes nothing (log entry 6). -/
def execIdle (s : State) : Host.Outcome State Fault Refusal := live s (.next s)

/-- WAIT_FREE (R110): leaves on `sr.BUSY = 0`; neither `NACK` nor the latch is read. -/
def execWaitFree (s : State) : Host.Outcome State Fault Refusal :=
  live s (.next (poll (fun sr => !srBusy sr) (goto Seq.doStart) s))

/-- DO_START (R111): START, or repeated START in a read phase after a write phase. -/
def execDoStart (s : State) : Host.Outcome State Fault Refusal :=
  live s (.next (goto Seq.waitSb (emit .start s)))

/-- WAIT_SB (R112), in both phases (90_conflicts.md C7). -/
def execWaitSb (s : State) : Host.Outcome State Fault Refusal :=
  live s (.next (poll srSb (goto Seq.doAddr) s))

/-- DO_ADDR (R113). -/
def execDoAddr (s : State) : Host.Outcome State Fault Refusal :=
  live s (.next (goto Seq.waitAddr (emit (.tx .addr (addressByte s.reqAddr s.ph)) s)))

/-- Where an acknowledged address leads (R114): the write bytes, the end of a probe, or the read phase. -/
def addressAcknowledged (s : State) : State :=
  match s.ph with
  | .W => if 0 < s.reqWlen.toNat then { s with idx := 0, seq := Seq.doTx } else finish .ok s
  | .R => goto Seq.doAckSetup s

/-- WAIT_ADDR (R114). -/
def execWaitAddr (s : State) : Host.Outcome State Fault Refusal :=
  live s (.next (pollOrFail .addressNack srAddr addressAcknowledged s))

end Sys2Proof.Machine
end

