-- ==== Sys2Proof/Machine/Commands.lean ====
section
/-! DEFINITION. The host commands: EXECUTE (40_transaction_engine.md R101, R102), SELECT_PINS and SET_SPEED
(41_pin_speed_config.md R150–R154). Their words are checked by the decoder before the `BUSY` checks here (R80). -/

namespace Sys2Proof.Machine

open Sys2Proof

/-- The accept step of EXECUTE, one atomic step: the latch is cleared before `CR_ERRIE` is set (R101, R174). -/
def acceptExecute (addr : Addr) (wlen rlen : BitVec 8) (s : State) : State :=
  { s with
    reqAddr := addr
    reqWlen := wlen
    reqRlen := rlen
    rbuf := []
    result := .none
    outcome := .none
    idx := 0
    latchSet := false
    latchBits := 0
    crErrie := true
    deadline := deadlineAt s.now
    ph := firstPhase wlen rlen
    seq := Seq.waitFree
    resp := .accepted
    hist := s.hist ++ [.accept addr wlen rlen s.pin, .errie true] }

/-- EXECUTE: accepted while `BUSY = 0` (R101); while `BUSY = 1` only `RESP <- BUSY` (R102). -/
def execExecute (addr : Addr) (wlen rlen : BitVec 8) (s : State) : Host.Outcome State Fault Refusal :=
  live s (.next (if isBusy s then { s with resp := .busy } else acceptExecute addr wlen rlen s))

/-- SELECT_PINS: `PIN <- p; reinit(); RESP <- OK` (R151); `CONFIG_WHILE_ACTIVE` while `BUSY = 1` (R150). -/
def execSelectPins (pair : Pin) (s : State) : Host.Outcome State Fault Refusal :=
  live s (.next (if isBusy s then raise .configWhileActive s
    else { reinit { s with pin := pair } with resp := .ok }))

/-- SET_SPEED: accepted up to `MAX_HZ` (R153), `CONFIG_ERROR` above it (R154); `CONFIG_WHILE_ACTIVE` while `BUSY = 1`,
whatever `SPEED_ARG` holds (R150). -/
def execSetSpeed (s : State) : Host.Outcome State Fault Refusal :=
  live s (.next (if isBusy s then raise .configWhileActive s
    else if Config.maxHz < s.speedArg.toNat then { s with resp := .configError }
    else { reinit { s with hz := s.speedArg } with resp := .ok }))

end Sys2Proof.Machine
end

