-- ==== Sys2Proof/Machine/ReadPhase.lean ====
section
/-! DEFINITION. The read phase's data bytes and its ACK control (40_transaction_engine.md R117–R120). -/

namespace Sys2Proof.Machine

open Sys2Proof

/-- DO_ACK_SETUP (R117): ACK is on exactly when more than one byte is to come. -/
def execDoAckSetup (s : State) : Host.Outcome State Fault Refusal :=
  live s (.next { emit (.ack (decide (1 < s.reqRlen.toNat))) s with
    crAck := decide (1 < s.reqRlen.toNat)
    idx := 0
    seq := Seq.waitRxne })

/-- WAIT_RXNE (R118). -/
def execWaitRxne (s : State) : Host.Outcome State Fault Refusal :=
  live s (.next (pollOrFail .dataNack srRxne (goto Seq.doRxRead) s))

/-- Where a stored byte leads, `IDX` already advanced (R119). -/
def byteReceived (s : State) : State :=
  if s.idx.toNat = s.reqRlen.toNat then finish .ok s
  else if s.idx.toNat + 1 = s.reqRlen.toNat then goto Seq.doAckOff s
  else goto Seq.waitRxne s

/-- DO_RX_READ (R119): `RBUF[IDX] <- b; IDX <- IDX + 1`. -/
def execDoRxRead (s : State) : Host.Outcome State Fault Refusal :=
  live s (.next (byteReceived { sampleDR s with
    rbuf := Memory.store Config.maxRead s.rbuf s.idx.toNat (nextDR s)
    idx := s.idx + 1 }))

/-- DO_ACK_OFF (R120). -/
def execDoAckOff (s : State) : Host.Outcome State Fault Refusal :=
  live s (.next (goto Seq.waitRxne { emit (.ack false) s with crAck := false }))

end Sys2Proof.Machine
end

