-- ==== Sys2Proof/Machine/StopPhase.lean ====
section
/-! DEFINITION. The return path of every transaction: STOP, then the error-interrupt disable and the posted result
(40_transaction_engine.md R121, R122; 60_exceptions.md R216). -/

namespace Sys2Proof.Machine

open Sys2Proof

/-- DO_STOP (R121): STOP on every exit path; the step does not wait for it. -/
def execDoStop (s : State) : Host.Outcome State Fault Refusal :=
  live s (.next (goto Seq.doErrOff (emit .stop s)))

/-- DO_ERR_OFF (R122): the error interrupt off, `RESULT` posted, the read buffer invalidated unless the outcome is
`OK`, back to `IDLE`. -/
def execDoErrOff (s : State) : Host.Outcome State Fault Refusal :=
  live s (.next { s with
    crErrie := false
    result := s.outcome
    rbuf := if s.outcome = .ok then s.rbuf else []
    outcome := .none
    seq := Seq.idle
    hist := s.hist ++ [.errie false, .done s.outcome] })

end Sys2Proof.Machine
end

