-- ==== Sys2Proof/Machine/WritePhase.lean ====
section
/-! DEFINITION. The write phase's data bytes (40_transaction_engine.md R115, R116). -/

namespace Sys2Proof.Machine

open Sys2Proof

/-- DO_TX (R115): transmit `WBUF[IDX]`; where no byte is held there, `WBUF_UNWRITTEN` is raised. -/
def execDoTx (s : State) : Host.Outcome State Fault Refusal :=
  live s (.next (match Memory.cell Config.maxWrite s.wbuf s.idx.toNat with
    | none => raise .wbufUnwritten s
    | some b => goto Seq.waitBtf (emit (.tx .data b) s)))

/-- Where a completed byte leads (R116): the next byte, the read phase behind a repeated START, or the end. -/
def byteTransferred (s : State) : State :=
  if s.idx.toNat + 1 < s.reqWlen.toNat then { s with idx := s.idx + 1, seq := Seq.doTx }
  else if 0 < s.reqRlen.toNat then { s with idx := 0, ph := .R, seq := Seq.doStart }
  else finish .ok s

/-- WAIT_BTF (R116). -/
def execWaitBtf (s : State) : Host.Outcome State Fault Refusal :=
  live s (.next (pollOrFail .dataNack srBtf byteTransferred s))

end Sys2Proof.Machine
end

