-- ==== Sys2Proof/Machine/Dispatch.lean ====
section
/-! DEFINITION. The dispatch: one arm per constructor of Instr (30_encoding.md R80, R88). -/

namespace Sys2Proof.Machine

open Sys2Proof

def exec (i : Instr) (s : State) : Host.Outcome State Fault Refusal :=
  match i with
  | .execute addr wlen rlen => Sys2Proof.Machine.execExecute addr wlen rlen s
  | .selectPins pair => Sys2Proof.Machine.execSelectPins pair s
  | .setSpeed => Sys2Proof.Machine.execSetSpeed s
  | .idle => Sys2Proof.Machine.execIdle s
  | .waitFree => Sys2Proof.Machine.execWaitFree s
  | .doStart => Sys2Proof.Machine.execDoStart s
  | .waitSb => Sys2Proof.Machine.execWaitSb s
  | .doAddr => Sys2Proof.Machine.execDoAddr s
  | .waitAddr => Sys2Proof.Machine.execWaitAddr s
  | .doTx => Sys2Proof.Machine.execDoTx s
  | .waitBtf => Sys2Proof.Machine.execWaitBtf s
  | .doAckSetup => Sys2Proof.Machine.execDoAckSetup s
  | .waitRxne => Sys2Proof.Machine.execWaitRxne s
  | .doRxRead => Sys2Proof.Machine.execDoRxRead s
  | .doAckOff => Sys2Proof.Machine.execDoAckOff s
  | .doStop => Sys2Proof.Machine.execDoStop s
  | .doErrOff => Sys2Proof.Machine.execDoErrOff s

end Sys2Proof.Machine
end

