-- ==== Sys2Proof/Machine/HostPort.lean ====
section
/-! DEFINITION. The host register space (10_state.md R43) and HOST's accesses to it (20_memory.md R60–R66), with the
issue of a command word (30_encoding.md R80). -/

namespace Sys2Proof.Machine

open Sys2Proof

/-- The mapped registers of R43. -/
inductive HostReg where
  | cmd
  | speedArg
  | resp
  | status
  | result
  | config
  | speed
  | wbuf (i : Nat)
  | rbuf (i : Nat)
  deriving DecidableEq, Repr

/-- The register at a 4-byte-aligned mapped offset; nothing at any other offset (R43, R65). -/
def regAt (off : Nat) : Option HostReg :=
  if off % 4 ≠ 0 then none
  else if off = 0x000 then some .cmd
  else if off = 0x004 then some .speedArg
  else if off = 0x008 then some .resp
  else if off = 0x00C then some .status
  else if off = 0x010 then some .result
  else if off = 0x014 then some .config
  else if off = 0x018 then some .speed
  else if 0x100 ≤ off ∧ off < 0x100 + 4 * Config.maxWrite then some (.wbuf ((off - 0x100) / 4))
  else if 0x300 ≤ off ∧ off < 0x300 + 4 * Config.maxRead then some (.rbuf ((off - 0x300) / 4))
  else none

/-- What a HOST read gives: the register's value, or the reason it faults. -/
inductive ReadResult where
  | value (v : Word)
  | fails (r : Reason)
  deriving DecidableEq, Repr

/-- `MemRead` of a register: the layout of R43, with the faults of R60 and R64. -/
def hostRead (r : HostReg) (s : State) : ReadResult :=
  match r with
  | .cmd => .value 0
  | .speedArg => .value s.speedArg
  | .resp => .value ((codeBits s.resp).zeroExtend 32)
  | .status => .value (0#30 ++ BitVec.ofBool (isDone s) ++ BitVec.ofBool (isBusy s))
  | .result => .value ((codeBits s.result).zeroExtend 32)
  | .config => .value ((bitOfPin s.pin).zeroExtend 32)
  | .speed => .value s.hz
  | .wbuf i =>
    match Memory.read s.wbuf i with
    | some b => .value (b.zeroExtend 32)
    | none => .fails .wbufUnwritten
  | .rbuf i =>
    if isBusy s then .fails .hostReadWhileActive
    else
      match Memory.read s.rbuf i with
      | some b => .value (b.zeroExtend 32)
      | none => .fails .rbufInvalid

/-- `issue(v)` (R80): an illegal word faults `ILLEGAL_COMMAND` before any `BUSY` check; a legal one runs its command. -/
def issue (v : Word) (s : State) : Host.Outcome State Fault Refusal :=
  match decode (.cmd v) with
  | .ok i => exec i s
  | .rejected _ => .next (raise .illegalCommand s)

/-- `wbuf_write(i, v)` (R63). -/
def wbufWrite (i : Nat) (v : Word) (s : State) : State :=
  if isBusy s then raise .hostWriteWhileActive s
  else { s with wbuf := Memory.write s.wbuf i (v.truncate 8) }

/-- `MemWrite` of a register (R61); a read-only register ignores it. -/
def hostWrite (r : HostReg) (v : Word) (s : State) : Host.Outcome State Fault Refusal :=
  match r with
  | .cmd => issue v s
  | .speedArg => .next { s with speedArg := v }
  | .wbuf i => .next (wbufWrite i v s)
  | .resp => .next s
  | .status => .next s
  | .result => .next s
  | .config => .next s
  | .speed => .next s
  | .rbuf _ => .next s

/-- The register an access reaches: none where the width is not 4 or `regAt` maps none (R65). -/
def accessReg (off width : Nat) : Option HostReg := if width = 4 then regAt off else none

/-- One HOST step: `BAD_HOST_ACCESS` comes before any register is decoded (R65, R207). A read's value goes to HOST
(log entry 10) and changes nothing else (R60, R66). -/
def hostStep (access : HostAccess) (s : State) : Host.Outcome State Fault Refusal :=
  live s (match access with
    | .read off width =>
      match accessReg off width with
      | none => .next (raise .badHostAccess s)
      | some r =>
        match hostRead r s with
        | .value v => .next { s with returned := s.returned ++ [v] }
        | .fails why => .next (raise why s)
    | .write off width v =>
      match accessReg off width with
      | none => .next (raise .badHostAccess s)
      | some r => hostWrite r v s)

end Sys2Proof.Machine
end

