-- ==== Sys2Proof/Machine/Agents.lean ====
section
/-! DEFINITION. The steps of the agents (00_scope.md R6): the ENGINE's fetch of its micro-state (30_encoding.md R88),
TICK (43_timeout_watchdog.md R185), ERRH (42_error_latch.md R171, R172), and which of them a turn runs. Also where
an instruction is placed so that the next step runs it. -/

namespace Sys2Proof.Machine

open Sys2Proof

/-- `engine_step()` (R88): run the micro-state that `SEQ` holds; 14 and 15 fault `BAD_SEQ`. At `IDLE` nothing is
enabled (R21; log entry 6). -/
def engineStep (s : State) : Host.Outcome State Fault Refusal :=
  live s (match decode (.seq s.seq) with
    | .ok i => exec i s
    | .rejected _ => .next (raise .badSeq s))

/-- TICK (R185): `NOW <- NOW + 1`, mod 2^32, whether or not a transaction runs. -/
def tickStep (s : State) : Host.Outcome State Fault Refusal := live s (.next { s with now := s.now + 1 })

/-- A bus-error event: ERRH captures it while `CR_ERRIE = 1` (R171); otherwise it changes nothing (R172). -/
def errorStep (bits : LatchWord) (s : State) : Host.Outcome State Fault Refusal :=
  live s (.next (if s.crErrie then captureError bits s else s))

/-- The step of the agent whose turn it is (R6, R70). -/
def agentStep (turn : Turn) (s : State) : Host.Outcome State Fault Refusal :=
  match turn with
  | .host access => hostStep access s
  | .engine => engineStep s
  | .tick => tickStep s
  | .busError bits => errorStep bits s

/-- One step of the block: the next turn is taken and its agent steps (R6, R71). -/
def oneStep (s : State) : Host.Outcome State Fault Refusal := agentStep (nextTurn s) (takeTurn s)

/-- Place a code so that the next step runs it: a command word as HOST's write of `CMD` (R62), a micro-state in `SEQ`
with the ENGINE's turn (R21, R88; log entry 9). -/
def placeCode (c : Code) (s : State) : State :=
  match c with
  | .cmd v => { s with agenda := .host (.write 0x000 4 v) :: s.agenda }
  | .seq q => { s with seq := q, agenda := .engine :: s.agenda }

/-- `placeCode` of a table row's bits; a row that is no code places nothing. -/
def placeTableWord (nbits w : Nat) (s : State) : State :=
  match codeOfTableWord nbits w with
  | some c => placeCode c s
  | none => s

end Sys2Proof.Machine
end

