-- ==== Sys2Proof/Machine/Step.lean ====
section
/-! DEFINITION. One step of the block, and where the host places an instruction that the next step runs. -/

namespace Sys2Proof.Machine

open Sys2Proof

/-- One atomic step of the agent whose turn it is (00_scope.md R6, 20_memory.md R70). -/
def step (s : State) : Host.Outcome State Fault Refusal := oneStep s

/-- `s` with a table row's instruction placed where the next step runs it (log entry 9). -/
def State.withFetchWord (s : State) (nbits w : Nat) : State := placeTableWord nbits w s

end Sys2Proof.Machine
end

