-- ==== Sys2Proof/Machine/Runs.lean ====
section
/-! DEFINITION. Runs of the block: any enabled agent may take the next step (00_scope.md R6) and the BUS may answer
anything (10_state.md R31); fairness (43_timeout_watchdog.md R190); the end of a run and its observation, and when a
claim about the block holds (70_reset_and_hazards.md R243, R244). A run is a sequence of states and stands in no
state. -/

namespace Sys2Proof.Machine

open Sys2Proof

/-- No fault has been raised (R205). -/
abbrev State.Safe (s : State) : Prop := s.fault = []

/-- The turn is HOST's. -/
def Turn.isHost : Turn → Bool
  | .host _ => true
  | .engine => false
  | .tick => false
  | .busError _ => false

/-- The state with other turns and BUS answers ready: what the environment may change between two steps (log entries 1
and 2). -/
def State.withEnv (s : State) (agenda : List Turn) (srIn : List StatusWord) (drIn : List Byte) (draws : Nat) : State :=
  { s with agenda := agenda, srIn := srIn, drIn := drIn, draws := draws }

/-- One step of the block as R6 and R31 give it: the agent of `turn` steps, whatever turns and answers the environment
has ready. `step` is one of these (`Moves.of_step`). -/
def Moves (turn : Turn) (s t : State) : Prop :=
  ∃ agenda srIn drIn draws, agentStep turn (s.withEnv agenda srIn drIn draws) = .next t

/-- HOST's program, which lies outside the block (R126; log entry 23): its next access once it has made so many accesses
and these values have been returned to it, or none when it has nothing left to issue. -/
abbrev HostProgram := Nat → List Word → Option HostAccess

/-- HOST's turns are the program's: a turn of HOST makes the access the program has next. -/
def HostProgram.Permits (p : HostProgram) (made : Nat) (s : State) (turn : Turn) : Prop :=
  ∀ access, turn = .host access → p made s.returned = some access

/-- How many accesses HOST has made once `turn` is taken. -/
def Turn.countHost (turn : Turn) (made : Nat) : Nat := if Turn.isHost turn then made + 1 else made

/-- From `s` finitely many steps, `made` of them HOST's and as its program has them, lead to a state. -/
inductive Reaches (p : HostProgram) (s : State) : Nat → State → Prop where
  | start : Reaches p s 0 s
  | move {made : Nat} {t u : State} {turn : Turn} (before : Reaches p s made t) (permitted : p.Permits made t turn)
      (last : Moves turn t u) : Reaches p s (Turn.countHost turn made) u

/-- An infinite run: who steps, and the states between. -/
structure Run where
  turn : Nat → Turn
  state : Nat → State
  moves : ∀ n, Moves (turn n) (state n) (state (n + 1))

/-- How many of the first `n` steps were TICK's. -/
def Run.ticks (r : Run) : Nat → Nat
  | 0 => 0
  | n + 1 => r.ticks n + (if r.turn n = .tick then 1 else 0)

/-- How many accesses HOST made in the first `n` steps. -/
def Run.made (r : Run) : Nat → Nat
  | 0 => 0
  | n + 1 => Turn.countHost (r.turn n) (r.made n)

/-- HOST does in the run what its program says. -/
def Run.Follows (r : Run) (p : HostProgram) : Prop := ∀ n, p.Permits (r.made n) (r.state n) (r.turn n)

/-- At the `n`-th state the program has nothing left to issue. -/
def Run.HostDone (r : Run) (p : HostProgram) (n : Nat) : Prop := p (r.made n) (r.state n).returned = none

/-- HOST is not held up forever: it takes a turn whenever its program keeps having one. R190 does not ask this (log entry
23). -/
def Run.HostGoesOn (r : Run) (p : HostProgram) : Prop :=
  ∀ n, (∀ m, n ≤ m → ¬r.HostDone p m) → ∃ m, n ≤ m ∧ Turn.isHost (r.turn m) = true

/-- R190's first condition, weak fairness: TICK takes infinitely many steps, and the ENGINE does while `BUSY = 1`. -/
structure Run.WeaklyFair (r : Run) : Prop where
  tick : ∀ n, ∃ m, n ≤ m ∧ r.turn m = .tick
  engine : ∀ n, (∀ m, n ≤ m → isBusy (r.state m) = true) → ∃ m, n ≤ m ∧ r.turn m = .engine

/-- R190's second condition: between two consecutive ENGINE steps of one transaction at most `2^31 - 1` TICK steps
occur. -/
def Run.PolledInTime (r : Run) : Prop :=
  ∀ i j, i < j → r.turn i = .engine → r.turn j = .engine →
    (∀ k, i < k → k < j → r.turn k ≠ .engine) → (∀ k, i ≤ k → k ≤ j → isBusy (r.state k) = true) →
    r.ticks j ≤ r.ticks i + (2 ^ 31 - 1)

/-- R190's two conditions together, which 93_implementation_defined.md P2 lists as an assumption (log entry 12). -/
structure Run.Fair (r : Run) : Prop where
  weakly : r.WeaklyFair
  polled : r.PolledInTime

/-- The run is over at its `n`-th state: no fault, `SEQ = IDLE`, and HOST's program has nothing left to issue (R243). -/
structure Run.Over (r : Run) (p : HostProgram) (n : Nat) : Prop where
  safe : (r.state n).Safe
  idle : isBusy (r.state n) = false
  hostDone : r.HostDone p n

/-- The run ends at its `n`-th state, the first at which it is over (R243). -/
def Run.EndsAt (r : Run) (p : HostProgram) (n : Nat) : Prop := r.Over p n ∧ ∀ m, m < n → ¬r.Over p m

/-- A poll micro-state (R104). -/
def isPoll (s : State) : Bool :=
  decide (s.seq = Seq.waitFree ∨ s.seq = Seq.waitSb ∨ s.seq = Seq.waitAddr ∨ s.seq = Seq.waitBtf ∨ s.seq = Seq.waitRxne)

/-- From its `n`-th state on the run hangs: a poll stays forever (R244). -/
def Run.HangsFrom (r : Run) (n : Nat) : Prop :=
  isPoll (r.state n) = true ∧ ∀ m, n ≤ m → (r.state m).seq = (r.state n).seq

/-- What R243 lets a claim about a finished run read. -/
structure Observation where
  resp : ResCode
  result : ResCode
  rbuf : Memory
  pin : Pin
  hz : Word
  duty : DutyMode
  hist : List Event
  deriving DecidableEq, Repr

/-- The observation of a state (R243). -/
def observe (s : State) : Observation :=
  { resp := s.resp, result := s.result, rbuf := s.rbuf, pin := s.pin, hz := s.hz, duty := s.duty, hist := s.hist }

/-- The runs of the program from a state `start` allows that a claim is held against. -/
structure Run.Counts (r : Run) (considered : Run → Prop) (p : HostProgram) (start : State → Prop) : Prop where
  considered : considered r
  follows : r.Follows p
  starts : start (r.state 0)

/-- A claim about HOST's program `p`, started in a state `start` allows, holds (R244): no run reaches a fault, none is
weakly fair and never over, none hangs, and the claim is true of what is observed where one ends. R244
looks at every infinite run; `considered` names the assumptions made about them, such as `Run.Fair` (P2, log entry 12)
and `Run.HostGoesOn` (log entry 23). -/
structure Holds (considered : Run → Prop) (p : HostProgram) (start : State → Prop) (claim : Observation → Prop) :
    Prop where
  noFault : ∀ s made t, start s → Reaches p s made t → t.Safe
  ends : ∀ r : Run, r.Counts considered p start → r.WeaklyFair → ∃ n, r.Over p n
  noHang : ∀ r : Run, r.Counts considered p start → ∀ n, ¬r.HangsFrom n
  observed : ∀ r : Run, r.Counts considered p start → ∀ n, r.EndsAt p n → claim (observe (r.state n))

end Sys2Proof.Machine
end

