-- ==== Sys2Proof/Machine/Assembly.lean ====
section
/-! DEFINITION. The host assembly lines and pseudo-instructions as what HOST does (30_encoding.md R89, R90): the accesses
a line stands for, and where `WAIT` and `CALL` go by what HOST has read, how. A list of lines is a HOST program of a run
(`asmProgram`). The text of a line is not parsed (log entry 21). -/

namespace Sys2Proof.Machine

open Sys2Proof

/-- A line of R89, or one of the three pseudo-instructions of R90 that are an EXECUTE line; none of them goes by what HOST
reads. -/
inductive AsmLine where
  | execute (addr : Addr) (rlen : BitVec 8) (bytes : List Byte)
  | selectPins (pair : Pin)
  | setSpeed (hz : Word)
  | memw (off : Nat) (v : Word)
  | memr (off : Nat)
  | probe (addr : Addr)
  | write (addr : Addr) (bytes : List Byte)
  | read (addr : Addr) (n : BitVec 8)
  deriving DecidableEq, Repr

/-- `CMD <- 0x1 + (addr << 4) + (n << 12) + (rlen << 20)` (R89). -/
def executeWord (addr : Addr) (n rlen : BitVec 8) : Word :=
  0x1#32 + (addr.zeroExtend 32 <<< 4) + (n.zeroExtend 32 <<< 12) + (rlen.zeroExtend 32 <<< 20)

/-- `WBUF[k] <- bk` for each byte, then the EXECUTE word (R89). -/
def expandExecute (addr : Addr) (rlen : BitVec 8) (bytes : List Byte) : List HostAccess :=
  bytes.mapIdx (fun k b => HostAccess.write (0x100 + 4 * k) 4 (b.zeroExtend 32))
    ++ [.write 0x000 4 (executeWord addr (BitVec.ofNat 8 bytes.length) rlen)]

/-- The accesses a line stands for (R89, R90). -/
def expand : AsmLine → List HostAccess
  | .execute addr rlen bytes => expandExecute addr rlen bytes
  | .selectPins .pairA => [.write 0x000 4 0x02]
  | .selectPins .pairB => [.write 0x000 4 0x12]
  | .setSpeed hz => [.write 0x004 4 hz, .write 0x000 4 0x3]
  | .memw off v => [.write off 4 v]
  | .memr off => [.read off 4]
  | .probe addr => expandExecute addr 0 []
  | .write addr bytes => expandExecute addr 0 bytes
  | .read addr n => expandExecute addr n []

/-- What HOST does next in a line, and what it goes by. -/
inductive HostOp where
  /-- Make the access, whatever it returns. -/
  | access (a : HostAccess)
  /-- `MEMR 0x00C`, repeated until bit 0 (`BUSY`) is 0. -/
  | untilIdle
  /-- `MEMR 0x008`, which must read `ACCEPTED` or `BUSY`. -/
  | checkResp
  /-- `MEMR 0x010`, then these accesses when it reads `OK`. -/
  | readResult (whenOk : List HostAccess)
  deriving DecidableEq, Repr

/-- A line of a HOST program (R89, R90). -/
inductive HostLine where
  | plain (line : AsmLine)
  | wait
  | call (addr : Addr) (rlen : BitVec 8) (bytes : List Byte)
  deriving DecidableEq, Repr

/-- `WAIT` (R90), and what HOST goes on to read where it is part of a `CALL` and `RESULT = OK`. -/
def expandWait (whenOk : List HostAccess) : List HostOp := [.untilIdle, .readResult whenOk]

/-- The reads of the first `rlen` bytes of `RBUF` (R90). -/
def readBytes (rlen : BitVec 8) : List HostAccess :=
  (List.range rlen.toNat).map (fun k => HostAccess.read (0x300 + 4 * k) 4)

/-- `CALL`, the synchronous call: the EXECUTE line, `RESP`, `WAIT`, and the read bytes when `RESULT = OK` (R90). -/
def expandCall (addr : Addr) (rlen : BitVec 8) (bytes : List Byte) : List HostOp :=
  (expandExecute addr rlen bytes).map .access ++ .checkResp :: expandWait (readBytes rlen)

/-- What HOST does in a line (R89, R90). -/
def expandLine : HostLine → List HostOp
  | .plain line => (expand line).map .access
  | .wait => expandWait []
  | .call addr rlen bytes => expandCall addr rlen bytes

/-- The access HOST makes next, none when nothing is left. -/
def nextAccess : List HostOp → Option HostAccess
  | [] => none
  | .access a :: _ => some a
  | .untilIdle :: _ => some (.read 0x00C 4)
  | .checkResp :: _ => some (.read 0x008 4)
  | .readResult _ :: _ => some (.read 0x010 4)

/-- The register's whole value is the result code (R30, R43). -/
def readsCode (c : ResCode) (v : Word) : Bool := v == (codeBits c).zeroExtend 32

/-- What is left once the next access has returned `v`. A `RESP` other than `ACCEPTED` and `BUSY`, which no CMD write of an
EXECUTE leaves, ends the program (log entry 21). -/
def afterRead (v : Word) : List HostOp → List HostOp
  | [] => []
  | .access _ :: rest => rest
  | .untilIdle :: rest => if v.getLsbD 0 then .untilIdle :: rest else rest
  | .checkResp :: rest => if readsCode .accepted v || readsCode .busy v then rest else []
  | .readResult whenOk :: rest => if readsCode .ok v then whenOk.map .access ++ rest else rest

/-- What is left after `made` accesses, where `seen` are the values that HOST's reads have returned; a write returns
none. -/
def leftAfter (ops : List HostOp) (made : Nat) (seen : List Word) : List HostOp :=
  match made with
  | 0 => ops
  | made + 1 =>
    match nextAccess ops, seen with
    | some (.read _ _), v :: seen => leftAfter (afterRead v ops) made seen
    | some (.read _ _), [] => ops
    | some (.write _ _ _), seen => leftAfter ops.tail made seen
    | none, _ => []

/-- The HOST program of a list of lines, one after the other, for a run from a state that has returned nothing to HOST
yet (R89, R90). -/
def asmProgram (lines : List HostLine) : HostProgram :=
  fun made seen => nextAccess (leftAfter (lines.flatMap expandLine) made seen)

end Sys2Proof.Machine
end

