-- ==== Sys2Proof/Safety.lean ====
section
/-! DEFINITION. What the statements are said in: R22's view of the sequencer (10_state.md), its invariants (R49), what
`HIST` says about the current transaction (40_transaction_engine.md R123), and how many ENGINE steps a transaction still
needs (R124, 43_timeout_watchdog.md R190). -/

namespace Sys2Proof.Machine

open Sys2Proof

/-- The source's state machine, onto which R22 maps the micro-states. -/
inductive SourceState where
  | idle
  | busWait
  | startSent
  | addrSent
  | writingBytes
  | readingBytes
  | stopSent
  | terminal (outcome : ResCode)
  deriving DecidableEq, Repr

/-- R22's table; no source state for the codes 14 and 15. -/
def sourceState (s : State) : Option SourceState :=
  match s.seq.toNat with
  | 0 => some (if s.result = .none then .idle else .terminal s.result)
  | 1 => some .busWait
  | 2 => some .startSent
  | 3 => some .startSent
  | 4 => some .addrSent
  | 5 => some .addrSent
  | 6 => some .writingBytes
  | 7 => some .writingBytes
  | 8 => some .readingBytes
  | 9 => some .readingBytes
  | 10 => some .readingBytes
  | 11 => some .readingBytes
  | 12 => some .stopSent
  | 13 => some .stopSent
  | _ => none

/-- The four outcomes of a transaction (R25, R201). -/
def ResCode.isOutcome : ResCode → Bool
  | .ok => true
  | .timeout => true
  | .addressNack => true
  | .dataNack => true
  | .configError => false
  | .busy => false
  | .accepted => false
  | .none => false

/-- The invariants of R49 (items 1 and 3 to 7), with the bounds of R21, R24 and R27 and what the accept step and the
phase change establish before the data phases. Item 2 is about two states and is stated over a step. -/
structure SequencerInv (s : State) : Prop where
  /-- Codes 14 and 15 are never held (R21). -/
  code : s.seq.toNat < 14
  /-- `REQ_WLEN` is in `0..MAX_WRITE` and `REQ_RLEN` in `0..MAX_READ` (R27). -/
  wlen : s.reqWlen.toNat ≤ Config.maxWrite
  rlen : s.reqRlen.toNat ≤ Config.maxRead
  /-- `HZ <= MAX_HZ` (R39). -/
  speed : s.hz.toNat ≤ Config.maxHz
  /-- Item 1. -/
  quiet : s.seq = Seq.idle → s.crErrie = false
  /-- Up to the address poll `IDX` is 0, and a write phase without bytes is the probe (R101, R106, R116). -/
  header : 1 ≤ s.seq.toNat → s.seq.toNat ≤ 5 →
    s.idx = 0 ∧ (s.ph = .W → s.reqWlen.toNat = 0 → s.reqRlen.toNat = 0)
  /-- Item 3. -/
  writing : s.seq = Seq.doTx ∨ s.seq = Seq.waitBtf → s.ph = .W ∧ s.idx.toNat < s.reqWlen.toNat
  /-- Item 4. -/
  reading : s.seq = Seq.doAckSetup ∨ s.seq = Seq.waitRxne ∨ s.seq = Seq.doRxRead ∨ s.seq = Seq.doAckOff →
    s.ph = .R ∧ 1 ≤ s.reqRlen.toNat ∧ s.idx.toNat < s.reqRlen.toNat
  /-- Item 5. -/
  lastByte : s.seq = Seq.doAckOff → s.idx.toNat + 1 = s.reqRlen.toNat ∧ 2 ≤ s.reqRlen.toNat
  /-- Item 6. -/
  stopping : (s.seq = Seq.doStop ∨ s.seq = Seq.doErrOff) ↔ s.outcome ≠ .none
  /-- What `OUTCOME` may hold (R25). -/
  outcome : s.outcome ≠ .none → s.outcome.isOutcome = true
  /-- Item 7. -/
  readPhase : s.ph = .R → s.seq ≠ Seq.idle → 1 ≤ s.reqRlen.toNat

/-- The event opens a transaction. -/
def Event.isAccept : Event → Bool
  | .accept _ _ _ _ => true
  | .reinit _ _ _ => false
  | .sr _ => false
  | .start => false
  | .tx _ _ => false
  | .ack _ => false
  | .rx _ => false
  | .stop => false
  | .errie _ => false
  | .errlatch _ => false
  | .done _ => false

/-- The events from the last `EV_ACCEPT` on, itself included: R123's `T` and what came after it. -/
def sinceAccept (h : List Event) : List Event :=
  h.foldl (fun t e => if e.isAccept then [e] else t ++ [e]) []

/-- The byte of an `EV_RX`. -/
def Event.rxByte? : Event → Option Byte
  | .rx b => some b
  | .accept _ _ _ _ => none
  | .reinit _ _ _ => none
  | .sr _ => none
  | .start => none
  | .tx _ _ => none
  | .ack _ => none
  | .stop => none
  | .errie _ => none
  | .errlatch _ => none
  | .done _ => none

/-- The byte of an `EV_TX(DATA, b)`. -/
def Event.dataByte? : Event → Option Byte
  | .tx .data b => some b
  | .tx .addr _ => none
  | .rx _ => none
  | .accept _ _ _ _ => none
  | .reinit _ _ _ => none
  | .sr _ => none
  | .start => none
  | .ack _ => none
  | .stop => none
  | .errie _ => none
  | .errlatch _ => none
  | .done _ => none

/-- The bytes received in the current transaction, in order (R119). -/
def received (h : List Event) : List Byte := (sinceAccept h).filterMap Event.rxByte?

/-- The data bytes sent in the current transaction, in order (R115). -/
def sent (h : List Event) : List Byte := (sinceAccept h).filterMap Event.dataByte?

/-- An event the ERRH capture records (R171). -/
def Event.isCapture : Event → Bool
  | .errlatch _ => true
  | .errie false => true
  | .errie true => false
  | .accept _ _ _ _ => false
  | .reinit _ _ _ => false
  | .sr _ => false
  | .start => false
  | .tx _ _ => false
  | .ack _ => false
  | .rx _ => false
  | .stop => false
  | .done _ => false

/-- The event is an `EV_ERRLATCH`. -/
def Event.isErrlatch : Event → Bool
  | .errlatch _ => true
  | .errie _ => false
  | .accept _ _ _ _ => false
  | .reinit _ _ _ => false
  | .sr _ => false
  | .start => false
  | .tx _ _ => false
  | .ack _ => false
  | .rx _ => false
  | .stop => false
  | .done _ => false

/-- The event is an `EV_REINIT`. -/
def Event.isReinit : Event → Bool
  | .reinit _ _ _ => true
  | .errlatch _ => false
  | .errie _ => false
  | .accept _ _ _ _ => false
  | .sr _ => false
  | .start => false
  | .tx _ _ => false
  | .ack _ => false
  | .rx _ => false
  | .stop => false
  | .done _ => false

/-- The transaction is still running its phases: no STOP and no end has been recorded. -/
def Unstopped (t : List Event) : Prop := .stop ∉ t ∧ ∀ c, .done c ∉ t

/-- STOP has been asserted once, and since then only an error capture has been recorded (R121, R171). -/
def Stopped (t : List Event) : Prop :=
  ∃ before after, t = before ++ .stop :: after ∧ Unstopped before ∧ ∀ e ∈ after, e.isCapture = true

/-- The transaction has ended with `c`: one STOP, then `EV_ERRIE(0)` and `EV_DONE(c)`, with nothing but a capture
between, and nothing but reinits since (R123 item 1). -/
def Closed (c : ResCode) (t : List Event) : Prop :=
  ∃ during since, t = during ++ .errie false :: .done c :: since ∧ Stopped during ∧
    ∀ e ∈ since, e.isReinit = true

/-- R123 item 1, as it stands at each micro-state. -/
structure StopInv (s : State) : Prop where
  running : 1 ≤ s.seq.toNat → s.seq.toNat ≤ 12 → Unstopped (sinceAccept s.hist)
  stopped : s.seq = Seq.doErrOff → Stopped (sinceAccept s.hist)
  closed : s.seq = Seq.idle → s.result ≠ .none → Closed s.result (sinceAccept s.hist)

/-- A data byte has gone over the bus, either way, since the last address byte of the transaction (R123 item 3). -/
def dataSinceAddress (h : List Event) : Bool :=
  h.foldl (fun d e =>
    match e with
    | .accept _ _ _ _ => false
    | .tx .addr _ => false
    | .tx .data _ => true
    | .rx _ => true
    | .reinit _ _ _ => d
    | .sr _ => d
    | .start => d
    | .ack _ => d
    | .stop => d
    | .errie _ => d
    | .errlatch _ => d
    | .done _ => d) false

/-- R123 item 3: no data byte follows the address byte of a transaction that ends or will end `ADDRESS_NACK`. -/
def AddressNackInv (s : State) : Prop :=
  (s.seq = Seq.waitAddr ∨ s.outcome = .addressNack ∨ (s.seq = Seq.idle ∧ s.result = .addressNack)) →
    dataSinceAddress s.hist = false

/-- The held control bits `CR_ACK` and `CR_ERRIE` as the events have written them (R33, R47). -/
def controlBits (h : List Event) : Bool × Bool :=
  h.foldl (fun c e =>
    match e with
    | .ack v => (v, c.2)
    | .errie v => (c.1, v)
    | .reinit _ _ _ => (false, false)
    | .accept _ _ _ _ => c
    | .sr _ => c
    | .start => c
    | .tx _ _ => c
    | .rx _ => c
    | .stop => c
    | .errlatch _ => c
    | .done _ => c) (false, false)

/-- While a byte is awaited or read, automatic ACK is on exactly for every byte but the last (R117, R120, R236), and
the held control bits are those the events wrote. -/
structure AckInv (s : State) : Prop where
  line : s.seq = Seq.waitRxne ∨ s.seq = Seq.doRxRead →
    s.crAck = decide (s.idx.toNat + 1 < s.reqRlen.toNat)
  recorded : controlBits s.hist = (s.crAck, s.crErrie)

/-- The pin pair of the last `EV_ACCEPT`. -/
def acceptedPin (h : List Event) : Option Pin :=
  h.foldl (fun p e =>
    match e with
    | .accept _ _ _ pin => some pin
    | .reinit _ _ _ => p
    | .sr _ => p
    | .start => p
    | .tx _ _ => p
    | .ack _ => p
    | .rx _ => p
    | .stop => p
    | .errie _ => p
    | .errlatch _ => p
    | .done _ => p) none

/-- R123 item 6: a running transaction is on the pair its `EV_ACCEPT` names. -/
def OnePinInv (s : State) : Prop := s.seq ≠ Seq.idle → acceptedPin s.hist = some s.pin

/-- The error captures recorded in the current transaction. -/
def captures (h : List Event) : Nat := (sinceAccept h).countP Event.isErrlatch

/-- R173 and R174: at most one capture in a transaction, none while the interrupt is still enabled, and `LATCH_SET`
says whether there was one. -/
structure LatchInv (s : State) : Prop where
  armed : s.crErrie = true → captures s.hist = 0
  once : captures s.hist ≤ 1
  flag : s.latchSet = decide (captures s.hist = 1)

/-- The two buffers are in canonical form, within their 124 and 128 cells (R28, R29). -/
def State.BuffersWf (s : State) : Prop :=
  Memory.wf Config.maxWrite s.wbuf = true ∧ Memory.wf Config.maxRead s.rbuf = true

/-- What has been transferred at each micro-state, and what the buffers hold (R29, R67, R123 item 5). -/
structure TransferInv (s : State) : Prop where
  /-- The data bytes on the bus are the write buffer's, in index order. -/
  sentBytes : s.seq ≠ Seq.idle → ∀ k b, (sent s.hist)[k]? = some b → Memory.read s.wbuf k = some b
  /-- The read buffer holds the received bytes in order of reception, and nothing else. -/
  receivedBytes : 1 ≤ s.seq.toNat → s.seq.toNat ≤ 11 → ∀ k, Memory.read s.rbuf k = (received s.hist)[k]?
  /-- Before the write bytes nothing has been transferred. -/
  beforeWrite : 1 ≤ s.seq.toNat → s.seq.toNat ≤ 5 → s.ph = .W → sent s.hist = [] ∧ received s.hist = []
  transmit : s.seq = Seq.doTx → (sent s.hist).length = s.idx.toNat ∧ received s.hist = []
  transmitted : s.seq = Seq.waitBtf → (sent s.hist).length = s.idx.toNat + 1 ∧ received s.hist = []
  /-- Before the read bytes the write phase is complete. -/
  beforeRead : (1 ≤ s.seq.toNat ∧ s.seq.toNat ≤ 5 ∧ s.ph = .R) ∨ s.seq = Seq.doAckSetup →
    (sent s.hist).length = s.reqWlen.toNat ∧ received s.hist = []
  inRead : s.seq = Seq.waitRxne ∨ s.seq = Seq.doRxRead ∨ s.seq = Seq.doAckOff →
    (sent s.hist).length = s.reqWlen.toNat ∧ (received s.hist).length = s.idx.toNat
  /-- `OK` means every requested byte was transferred (R123 item 5). -/
  succeeded : s.outcome = .ok ∨ (s.seq = Seq.idle ∧ s.result = .ok) →
    (sent s.hist).length = s.reqWlen.toNat ∧ (received s.hist).length = s.reqRlen.toNat ∧
      ∀ k, Memory.read s.rbuf k = (received s.hist)[k]?
  /-- After any other end the read buffer holds only `⊥` (R29, R201). -/
  failed : s.seq = Seq.idle → s.result ≠ .ok → s.rbuf = []

/-- The codes the registers may hold (R25, R30, R85): an outcome or `NONE` in `RESULT`, `NONE` while a transaction
runs; an immediate response or `NONE` in `RESP`. -/
structure CodesInv (s : State) : Prop where
  result : s.result = .none ∨ s.result.isOutcome = true
  running : s.seq ≠ Seq.idle → s.result = .none
  resp : s.resp = .none ∨ s.resp = .ok ∨ s.resp = .configError ∨ s.resp = .busy ∨ s.resp = .accepted

/-- ENGINE steps of a read phase, header included (R124). -/
def readPhaseSteps (rl : Nat) : Nat := if 0 < rl then 4 + 1 + 2 * rl + (if 2 ≤ rl then 1 else 0) else 0

/-- `S_min` (R124). -/
def minSteps (wl rl : Nat) : Nat :=
  1 + (if 0 < wl ∨ rl = 0 then 4 + 2 * wl else 0) + readPhaseSteps rl + 2

/-- The micro-states still to be visited, each poll loop counted once (R190): the measure every ENGINE step that does
not stay in a poll makes smaller. -/
def stepsLeft (s : State) : Nat :=
  let rl := s.reqRlen.toNat
  let wl := s.reqWlen.toNat
  let left := rl - s.idx.toNat
  let afterAddress :=
    match s.ph with
    | .W => 2 * wl + readPhaseSteps rl + 2
    | .R => 2 * rl + 3 + (if 2 ≤ rl then 1 else 0)
  match s.seq.toNat with
  | 1 => afterAddress + 5
  | 2 => afterAddress + 4
  | 3 => afterAddress + 3
  | 4 => afterAddress + 2
  | 5 => afterAddress + 1
  | 6 => 2 * (wl - s.idx.toNat) + readPhaseSteps rl + 2
  | 7 => 2 * (wl - s.idx.toNat) + readPhaseSteps rl + 1
  | 8 => 2 * rl + 3 + (if 2 ≤ rl then 1 else 0)
  | 9 => 2 * left + 2 + (if 2 ≤ left then 1 else 0)
  | 10 => 2 * left + 1 + (if 2 ≤ left then 1 else 0)
  | 11 => 2 * left + 3
  | 12 => 2
  | 13 => 1
  | _ => 0

/-- The BUS answers the current poll with its condition met and no error (R105, R124), and the cell DO_TX sends is
written (R115). Any other micro-state asks nothing of the BUS. -/
def favourable (s : State) : Bool :=
  match s.seq.toNat with
  | 1 => !srBusy (nextSR s)
  | 3 => srSb (nextSR s)
  | 5 => !pollError (nextSR s) s && srAddr (nextSR s)
  | 6 => (Memory.cell Config.maxWrite s.wbuf s.idx.toNat).isSome
  | 7 => !pollError (nextSR s) s && srBtf (nextSR s)
  | 9 => !pollError (nextSR s) s && srRxne (nextSR s)
  | _ => true

/-- `n` ENGINE steps with no other agent between, stopping at the first stop. -/
def engineRun : Nat → State → Host.Outcome State Fault Refusal
  | 0, s => .next s
  | n + 1, s =>
    match engineStep s with
    | .next t => engineRun n t
    | .fault r => .fault r
    | .refused r => .refused r

/-- Apply `f` to the state of a next-state outcome. -/
def onNext (f : State → State) : Host.Outcome State Fault Refusal → Host.Outcome State Fault Refusal
  | .next t => .next (f t)
  | .fault r => .fault r
  | .refused r => .refused r

end Sys2Proof.Machine
end

