-- ==== Sys2Proof/Certificates/Slice0/Obligations.lean ====
section
/-! DEFINITION. The statements for the provers, from the spec's numbered rules. A hypothesis `s.fault = []` is the spec's
own enabling condition (10_state.md R45, 40_transaction_engine.md R100). Numerals for micro-states and codes are those
of R21 and R85. -/

open Sys2Proof Sys2Proof.Machine

/-! ## Encoding -/

/-- R80–R83, R87, R88: every well-formed instruction is read back from its own encoding. -/
def Obligations.DecodeReadsBackEncode : Prop :=
  ∀ i : Instr, i.WellFormed → decode (encode i) = .ok i

/-- R80, R86, R88: a code that decodes is the encoding of a well-formed instruction, so every code has one meaning. -/
def Obligations.EncodeReadsBackDecode : Prop :=
  ∀ (c : Code) (i : Instr), decode c = .ok i → i.WellFormed ∧ encode i = c

/-- R92 and the SEQ codes of R21: words written out from the spec decode to what the spec says. -/
def Obligations.WorkedWordsDecode : Prop :=
  decode (.cmd 0x00201501) = .ok (.execute 0x50 1 2) ∧
  decode (.cmd 0x00100501) = .ok (.execute 0x50 0 1) ∧
  decode (.cmd 0x00000501) = .ok (.execute 0x50 0 0) ∧
  decode (.cmd 0x0807C7F1) = .ok (.execute 0x7F 124 128) ∧
  decode (.cmd 0x00000002) = .ok (.selectPins .pairA) ∧
  decode (.cmd 0x00000012) = .ok (.selectPins .pairB) ∧
  decode (.cmd 0x00000003) = .ok .setSpeed ∧
  decode (.seq 1) = .ok .waitFree ∧
  decode (.seq 7) = .ok .waitBtf ∧
  decode (.seq 10) = .ok .doRxRead ∧
  decode (.seq 13) = .ok .doErrOff

/-- R86: exactly the listed words are illegal, and each is refused by the fault alone, whatever the block is doing; any
other word runs the command it spells. -/
def Obligations.IllegalWordsFaultAndNothingElse : Prop :=
  ∀ (v : Word) (s : State), s.fault = [] →
    if (field v 0 4 ≠ 1 ∧ field v 0 4 ≠ 2 ∧ field v 0 4 ≠ 3) ∨
        (field v 0 4 = 1 ∧ (field v 11 1 ≠ 0 ∨ field v 28 4 ≠ 0 ∨
          124 < (field v 12 8).toNat ∨ 128 < (field v 20 8).toNat)) ∨
        (field v 0 4 = 2 ∧ field v 5 27 ≠ 0) ∨
        (field v 0 4 = 3 ∧ field v 4 28 ≠ 0)
    then issue v s = .next { s with fault := [.illegalCommand] }
    else ∃ i, decode (.cmd v) = .ok i ∧ i.WellFormed ∧ issue v s = exec i s

/-- R85: the numbers of the result codes. -/
def Obligations.ResultCodesAreNumbered : Prop :=
  codeBits .ok = 0 ∧ codeBits .timeout = 1 ∧ codeBits .addressNack = 2 ∧ codeBits .dataNack = 3 ∧
    codeBits .configError = 4 ∧ codeBits .busy = 5 ∧ codeBits .accepted = 6 ∧ codeBits .none = 7

/-! ## The host commands -/

/-- R101: an accepted EXECUTE. -/
def Obligations.ExecuteAcceptedWhileIdle : Prop :=
  ∀ (addr : Addr) (wlen rlen : BitVec 8) (s : State),
    Instr.WellFormed (.execute addr wlen rlen) → s.fault = [] → s.seq = 0 →
    exec (.execute addr wlen rlen) s = .next { s with
      reqAddr := addr, reqWlen := wlen, reqRlen := rlen
      rbuf := [], result := .none, outcome := .none, idx := 0
      latchSet := false, latchBits := 0, crErrie := true
      deadline := s.now + 50
      ph := if 0 < wlen.toNat ∨ rlen.toNat = 0 then .W else .R
      seq := 1
      resp := .accepted
      hist := s.hist ++ [.accept addr wlen rlen s.pin, .errie true] }

/-- R102: an EXECUTE while a transaction runs. -/
def Obligations.ExecuteRejectedWhileBusy : Prop :=
  ∀ (addr : Addr) (wlen rlen : BitVec 8) (s : State), s.fault = [] → s.seq ≠ 0 →
    exec (.execute addr wlen rlen) s = .next { s with resp := .busy }

/-- R151, R152: an accepted SELECT_PINS, the pair already selected included; afterwards that pair is open-drain and the
other plain input. -/
def Obligations.SelectPinsAcceptedWhileIdle : Prop :=
  ∀ (p : Pin) (s : State), s.fault = [] → s.seq = 0 →
    ∃ t, exec (.selectPins p) s = .next t ∧
      t = { s with
        pin := p, crAck := false, crErrie := false
        hist := s.hist ++ [.reinit p s.hz s.duty]
        resp := .ok } ∧
      pinMode t p = .afOpenDrain ∧ ∀ q, q ≠ p → pinMode t q = .input

/-- R153: an accepted SET_SPEED. -/
def Obligations.SetSpeedAcceptedUpToCeiling : Prop :=
  ∀ s : State, s.fault = [] → s.seq = 0 → s.speedArg.toNat ≤ 400000 →
    exec .setSpeed s = .next { s with
      hz := s.speedArg, crAck := false, crErrie := false
      hist := s.hist ++ [.reinit s.pin s.speedArg s.duty]
      resp := .ok }

/-- R154: a rejected SET_SPEED. -/
def Obligations.SetSpeedRejectedAboveCeiling : Prop :=
  ∀ s : State, s.fault = [] → s.seq = 0 → 400000 < s.speedArg.toNat →
    exec .setSpeed s = .next { s with resp := .configError }

/-- R150: a configuration command while a transaction runs, whatever `SPEED_ARG` holds. -/
def Obligations.ConfigurationWhileActiveFaults : Prop :=
  ∀ (p : Pin) (s : State), s.fault = [] → s.seq ≠ 0 →
    exec (.selectPins p) s = .next { s with fault := [.configWhileActive] } ∧
      exec .setSpeed s = .next { s with fault := [.configWhileActive] }

/-! ## The micro-states -/

/-- R21: nothing is enabled at IDLE. The model gives an ENGINE turn taken there no effect (log entry 6). -/
def Obligations.IdleChangesNothing : Prop :=
  ∀ s : State, s.fault = [] → exec .idle s = .next s

/-- R31: a bus read is answered from the BUS and recorded, and changes nothing of the block but `HIST`. The queues
and the draw counter are the model's (log entry 2). -/
def Obligations.BusReadsRecordTheAnswer : Prop :=
  ∀ s : State,
    sampleSR s = { s with
      srIn := s.srIn.tail, draws := s.draws + (if s.srIn = [] then 1 else 0), hist := s.hist ++ [.sr (nextSR s)] } ∧
    sampleDR s = { s with
      drIn := s.drIn.tail, draws := s.draws + (if s.drIn = [] then 1 else 0), hist := s.hist ++ [.rx (nextDR s)] } ∧
    (∀ v : StatusWord, nextSR { s with srIn := v :: s.srIn } = v) ∧
    (∀ b : Byte, nextDR { s with drIn := b :: s.drIn } = b)

/-- R110. -/
def Obligations.WaitFreePollsBusBusy : Prop :=
  ∀ s : State, s.fault = [] →
    exec .waitFree s = .next (
      if (nextSR s).getLsbD 0 = false then { sampleSR s with seq := 2 }
      else if 0 < (s.now - s.deadline).toInt then { sampleSR s with outcome := .timeout, seq := 12 }
      else sampleSR s)

/-- R111. -/
def Obligations.DoStartAssertsStart : Prop :=
  ∀ s : State, s.fault = [] →
    exec .doStart s = .next { s with hist := s.hist ++ [.start], seq := 3 }

/-- R112. -/
def Obligations.WaitSbPollsStart : Prop :=
  ∀ s : State, s.fault = [] →
    exec .waitSb s = .next (
      if (nextSR s).getLsbD 1 = true then { sampleSR s with seq := 4 }
      else if 0 < (s.now - s.deadline).toInt then { sampleSR s with outcome := .timeout, seq := 12 }
      else sampleSR s)

/-- R113: the address byte is twice the address, plus 1 in the read phase. That the R/W bit is bit 0 is general knowledge
the spec adds to its source, and so is no plain rule (log entry 17). -/
def Obligations.DoAddrSendsAddressByte : Prop :=
  ∀ s : State, s.fault = [] →
    exec .doAddr s = .next { s with
      hist := s.hist ++
        [.tx .addr (BitVec.ofNat 8 (2 * s.reqAddr.toNat + (if s.ph = .R then 1 else 0)))]
      seq := 5 }

/-- R114. -/
def Obligations.WaitAddrClassifiesAddress : Prop :=
  ∀ s : State, s.fault = [] →
    exec .waitAddr s = .next (
      if (nextSR s).getLsbD 5 = true ∨ s.latchSet = true then
        { sampleSR s with outcome := .addressNack, seq := 12 }
      else if (nextSR s).getLsbD 2 = true then
        (if s.ph = .W then
          (if 0 < s.reqWlen.toNat then { sampleSR s with idx := 0, seq := 6 }
          else { sampleSR s with outcome := .ok, seq := 12 })
        else { sampleSR s with seq := 8 })
      else if 0 < (s.now - s.deadline).toInt then { sampleSR s with outcome := .timeout, seq := 12 }
      else sampleSR s)

/-- R115: a written cell is sent; a cell that HOST never wrote faults `WBUF_UNWRITTEN`, and nothing is sent. -/
def Obligations.DoTxSendsTheBufferByte : Prop :=
  ∀ s : State, s.fault = [] → s.idx.toNat < 124 →
    (∀ b : Byte, Memory.read s.wbuf s.idx.toNat = some b →
      exec .doTx s = .next { s with hist := s.hist ++ [.tx .data b], seq := 7 }) ∧
    (Memory.read s.wbuf s.idx.toNat = none → exec .doTx s = .next { s with fault := [.wbufUnwritten] })

/-- The model's choice (log entry 7), in states no run reaches: past `WBUF[123]` (R28) there is no byte to send, so DO_TX
faults as on an unwritten cell; past `RBUF[127]` (R29) there is no cell, so DO_RX_READ stores nothing and goes on. -/
def Obligations.TransfersPastTheLastCell : Prop :=
  ∀ s : State, s.fault = [] →
    (124 ≤ s.idx.toNat → exec .doTx s = .next { s with fault := [.wbufUnwritten] }) ∧
    (128 ≤ s.idx.toNat → exec .doRxRead s = .next (
      if (s.idx + 1).toNat = s.reqRlen.toNat then { sampleDR s with idx := s.idx + 1, outcome := .ok, seq := 12 }
      else if (s.idx + 1).toNat + 1 = s.reqRlen.toNat then { sampleDR s with idx := s.idx + 1, seq := 11 }
      else { sampleDR s with idx := s.idx + 1, seq := 9 }))

/-- R116. -/
def Obligations.WaitBtfAdvancesTheWrite : Prop :=
  ∀ s : State, s.fault = [] →
    exec .waitBtf s = .next (
      if (nextSR s).getLsbD 5 = true ∨ s.latchSet = true then
        { sampleSR s with outcome := .dataNack, seq := 12 }
      else if (nextSR s).getLsbD 3 = true then
        (if s.idx.toNat + 1 < s.reqWlen.toNat then { sampleSR s with idx := s.idx + 1, seq := 6 }
        else if 0 < s.reqRlen.toNat then { sampleSR s with idx := 0, ph := .R, seq := 2 }
        else { sampleSR s with outcome := .ok, seq := 12 })
      else if 0 < (s.now - s.deadline).toInt then { sampleSR s with outcome := .timeout, seq := 12 }
      else sampleSR s)

/-- R117. -/
def Obligations.DoAckSetupSetsAck : Prop :=
  ∀ s : State, s.fault = [] →
    exec .doAckSetup s = .next { s with
      crAck := decide (1 < s.reqRlen.toNat)
      hist := s.hist ++ [.ack (decide (1 < s.reqRlen.toNat))]
      idx := 0
      seq := 9 }

/-- R118. -/
def Obligations.WaitRxnePollsReceive : Prop :=
  ∀ s : State, s.fault = [] →
    exec .waitRxne s = .next (
      if (nextSR s).getLsbD 5 = true ∨ s.latchSet = true then
        { sampleSR s with outcome := .dataNack, seq := 12 }
      else if (nextSR s).getLsbD 4 = true then { sampleSR s with seq := 10 }
      else if 0 < (s.now - s.deadline).toInt then { sampleSR s with outcome := .timeout, seq := 12 }
      else sampleSR s)

/-- R119: the received byte is stored at `IDX`, and the byte count decides what follows. -/
def Obligations.DoRxReadStoresTheByte : Prop :=
  ∀ s : State, s.fault = [] → s.idx.toNat < 128 →
    exec .doRxRead s = .next (
      if s.idx.toNat + 1 = s.reqRlen.toNat then
        { sampleDR s with
          rbuf := Memory.write s.rbuf s.idx.toNat (nextDR s), idx := s.idx + 1, outcome := .ok, seq := 12 }
      else if s.idx.toNat + 2 = s.reqRlen.toNat then
        { sampleDR s with
          rbuf := Memory.write s.rbuf s.idx.toNat (nextDR s), idx := s.idx + 1, seq := 11 }
      else
        { sampleDR s with
          rbuf := Memory.write s.rbuf s.idx.toNat (nextDR s), idx := s.idx + 1, seq := 9 })

/-- R120. -/
def Obligations.DoAckOffClearsAck : Prop :=
  ∀ s : State, s.fault = [] →
    exec .doAckOff s = .next { s with crAck := false, hist := s.hist ++ [.ack false], seq := 9 }

/-- R121. -/
def Obligations.DoStopAssertsStop : Prop :=
  ∀ s : State, s.fault = [] →
    exec .doStop s = .next { s with hist := s.hist ++ [.stop], seq := 13 }

/-- R122: whatever the outcome is, an outcome that is not `OK` leaves no read byte. -/
def Obligations.DoErrOffPostsTheResult : Prop :=
  ∀ s : State, s.fault = [] →
    exec .doErrOff s = .next { s with
      crErrie := false
      result := s.outcome
      rbuf := if s.outcome = .ok then s.rbuf else []
      outcome := .none
      seq := 0
      hist := s.hist ++ [.errie false, .done s.outcome] }

/-- R10, R88: without a fault no instruction stops. A next state may be one that only records a fault: that a step which
raises a fault is itself a next state is the model's choice (log entry 4). -/
def Obligations.NoInstructionStopsWithoutAFault : Prop :=
  ∀ (i : Instr) (s : State), s.fault = [] → ∃ t, exec i s = .next t

/-! ## The step and the agents -/

/-- R6, R62, R88: the step runs the instruction that `SEQ` holds, or the command HOST writes to `CMD`, at the state with
the turn taken off; an access, a tick or an error event is its own agent's step. -/
def Obligations.StepRunsTheDecodedInstruction : Prop :=
  ∀ s : State,
    (∀ i, nextTurn s = .engine → decode (.seq s.seq) = .ok i → step s = exec i (takeTurn s)) ∧
    (∀ v i, nextTurn s = .host (.write 0x000 4 v) → decode (.cmd v) = .ok i → step s = exec i (takeTurn s)) ∧
    (∀ access, nextTurn s = .host access → step s = hostStep access (takeTurn s)) ∧
    takeTurn s = { s with
      agenda := s.agenda.tail, draws := s.draws + (if s.agenda = [] then 1 else 0) }

/-- Log entry 9, R62, R88: a well-formed instruction placed from its own encoding is what the next step runs. -/
def Obligations.PlacedInstructionRunsNext : Prop :=
  ∀ (s : State) (i : Instr), i.WellFormed →
    step (placeCode (encode i) s) =
      exec i (match encode i with
        | .cmd _ => s
        | .seq q => { s with seq := q })

/-- R37, R185: TICK adds one to `NOW`, mod 2^32, and changes nothing else; no other step changes `NOW`. -/
def Obligations.OnlyTickAdvancesNow : Prop :=
  (∀ s : State, s.fault = [] → nextTurn s = .tick → step s = .next { takeTurn s with now := s.now + 1 }) ∧
    ∀ s t : State, step s = .next t → nextTurn s ≠ .tick → t.now = s.now

/-- R171, R172: a bus error is captured while `CR_ERRIE = 1` and changes nothing while it is 0. -/
def Obligations.BusErrorIsCapturedOnlyWhileEnabled : Prop :=
  ∀ (s : State) (bits : LatchWord), s.fault = [] → nextTurn s = .busError bits →
    step s = .next (
      if s.crErrie = true then
        { takeTurn s with
          latchBits := bits, latchSet := true, crErrie := false
          hist := s.hist ++ [.errlatch bits, .errie false] }
      else takeTurn s)

/-- R88: a sequencer code 14 or 15 faults `BAD_SEQ`. -/
def Obligations.UnheldCodesFaultBadSeq : Prop :=
  ∀ s : State, s.fault = [] → nextTurn s = .engine → s.seq = 14 ∨ s.seq = 15 →
    step s = .next { takeTurn s with fault := [.badSeq] }

/-- R45, R205, R206: no fault after reset; a step that faults adds one reason and makes none of its other writes; afterwards no agent steps
and no instruction runs. That the faulting step is a next state, and that every later one stops under the first recorded
reason, as a refusal or a fault by that reason's kind, is the model's choice (log entry 4). -/
def Obligations.FaultIsStickyAndQuiescent : Prop :=
  State.reset.fault = [] ∧
    (∀ s t : State, step s = .next t → t.fault ≠ [] → ∃ r, t = { takeTurn s with fault := [r] }) ∧
    ∀ (s : State) (r : Reason) (l : List Reason), s.fault = r :: l →
      (∀ i, exec i s = stoppedBy r) ∧ step s = stoppedBy r ∧ ∀ t, step s ≠ .next t

/-! ## The host register space -/

/-- R43, R60: what a HOST read of each register but the read buffer returns; it changes no state of the block. -/
def Obligations.HostReadsTheRegisterMap : Prop :=
  ∀ s : State, s.fault = [] →
    hostStep (.read 0x000 4) s = .next { s with returned := s.returned ++ [0] } ∧
    hostStep (.read 0x004 4) s = .next { s with returned := s.returned ++ [s.speedArg] } ∧
    hostStep (.read 0x008 4) s = .next { s with
      returned := s.returned ++ [BitVec.ofNat 32 (codeBits s.resp).toNat] } ∧
    hostStep (.read 0x00C 4) s = .next { s with
      returned := s.returned ++
        [BitVec.ofNat 32 ((if s.seq ≠ 0 then 1 else 0) + (if s.seq = 0 ∧ s.result ≠ .none then 2 else 0))] } ∧
    hostStep (.read 0x010 4) s = .next { s with
      returned := s.returned ++ [BitVec.ofNat 32 (codeBits s.result).toNat] } ∧
    hostStep (.read 0x014 4) s = .next { s with
      returned := s.returned ++ [if s.pin = .pairA then 0 else 1] } ∧
    hostStep (.read 0x018 4) s = .next { s with returned := s.returned ++ [s.hz] } ∧
    ∀ i, i < 124 → hostStep (.read (0x100 + 4 * i) 4) s = .next (
      match Memory.read s.wbuf i with
      | some b => { s with returned := s.returned ++ [BitVec.ofNat 32 b.toNat] }
      | none => { s with fault := [.wbufUnwritten] })

/-- R64. -/
def Obligations.HostReadsTheReadBuffer : Prop :=
  ∀ (s : State) (i : Nat), s.fault = [] → i < 128 →
    hostStep (.read (0x300 + 4 * i) 4) s = .next (
      if s.seq ≠ 0 then { s with fault := [.hostReadWhileActive] }
      else
        match Memory.read s.rbuf i with
        | some b => { s with returned := s.returned ++ [BitVec.ofNat 32 b.toNat] }
        | none => { s with fault := [.rbufInvalid] })

/-- R61: what a HOST write of each register does. -/
def Obligations.HostWritesTheRegisterMap : Prop :=
  ∀ (s : State) (v : Word), s.fault = [] →
    hostStep (.write 0x000 4 v) s = issue v s ∧
    hostStep (.write 0x004 4 v) s = .next { s with speedArg := v } ∧
    (∀ i, i < 124 → hostStep (.write (0x100 + 4 * i) 4 v) s = .next (wbufWrite i v s)) ∧
    (∀ off ∈ [0x008, 0x00C, 0x010, 0x014, 0x018], hostStep (.write off 4 v) s = .next s) ∧
    ∀ i, i < 128 → hostStep (.write (0x300 + 4 * i) 4 v) s = .next s

/-- R63. -/
def Obligations.HostWritesTheWriteBufferWhileIdle : Prop :=
  ∀ (s : State) (i : Nat) (v : Word), s.fault = [] → i < 124 →
    hostStep (.write (0x100 + 4 * i) 4 v) s = .next (
      if s.seq ≠ 0 then { s with fault := [.hostWriteWhileActive] }
      else { s with wbuf := Memory.write s.wbuf i (field v 0 8) })

/-- R65: an access that is unmapped, not 4 bytes wide or not 4-byte aligned is refused. -/
def Obligations.BadHostAccessFaults : Prop :=
  ∀ (s : State) (off width : Nat) (v : Word), s.fault = [] →
    (width ≠ 4 ∨ off % 4 ≠ 0 ∨
      (0x018 < off ∧ off < 0x100) ∨ (0x2EC < off ∧ off < 0x300) ∨ 0x4FC < off) →
    hostStep (.read off width) s = .next { s with fault := [.badHostAccess] } ∧
      hostStep (.write off width v) s = .next { s with fault := [.badHostAccess] }

/-- R89: the EXECUTE line writes its bytes into the write buffer from index 0 and then the word that decodes to it. -/
def Obligations.ExecuteLineIssuesItsCommand : Prop :=
  ∀ (addr : Addr) (rlen : BitVec 8) (bytes : List Byte), bytes.length ≤ 124 → rlen.toNat ≤ 128 →
    ∃ w, (expand (.execute addr rlen bytes)).getLast? = some (HostAccess.write 0x000 4 w) ∧
      decode (.cmd w) = .ok (.execute addr (BitVec.ofNat 8 bytes.length) rlen) ∧
      (expand (.execute addr rlen bytes)).length = bytes.length + 1 ∧
      ∀ k b, bytes[k]? = some b →
        (expand (.execute addr rlen bytes))[k]? = some (HostAccess.write (0x100 + 4 * k) 4 (BitVec.ofNat 32 b.toNat))

/-! ## Reset -/

/-- R48: the state after reset. -/
def Obligations.ResetLeavesTheTable : Prop :=
  let s := State.reset
  s.seq = 0 ∧ s.ph = .W ∧ s.idx = 0 ∧ s.outcome = .none ∧ s.deadline = 0 ∧
    s.reqAddr = 0 ∧ s.reqWlen = 0 ∧ s.reqRlen = 0 ∧
    (∀ i, Memory.read s.wbuf i = none) ∧ (∀ i, Memory.read s.rbuf i = none) ∧
    s.resp = .none ∧ s.result = .none ∧ s.crAck = false ∧ s.crErrie = false ∧
    s.latchSet = false ∧ s.latchBits = 0 ∧ s.now = Config.tickInit ∧ s.pin = Config.pinInit ∧
    s.hz = Config.hzInit ∧ s.hz.toNat ≤ 400000 ∧ s.duty = Config.dutyInit ∧ s.speedArg = 0 ∧ s.fault = [] ∧
    s.hist = [.reinit Config.pinInit Config.hzInit Config.dutyInit]

/-- The invariants below hold after reset. -/
def Obligations.InvariantsHoldAtReset : Prop :=
  State.reset.BuffersWf ∧ SequencerInv State.reset ∧ CodesInv State.reset ∧ StopInv State.reset ∧
    AddressNackInv State.reset ∧ AckInv State.reset ∧ OnePinInv State.reset ∧ LatchInv State.reset ∧
    TransferInv State.reset

/-! ## Invariants of every step -/

/-- Every step keeps both buffers within their 124 and 128 cells (R28, R29), as lists with strictly rising indices. That
canonical form is the model's choice (log entry 8). -/
def Obligations.StepKeepsBuffersCanonical : Prop :=
  ∀ s t : State, s.BuffersWf → step s = .next t → t.BuffersWf

/-- R49 (items 1 and 3 to 7), with R21, R27 and R39; and which codes the registers hold (R25, R30, R85). -/
def Obligations.StepKeepsTheSequencerInvariant : Prop :=
  ∀ s t : State, SequencerInv s → step s = .next t → SequencerInv t ∧ (CodesInv s → CodesInv t)

/-- R123 item 1: STOP is asserted once in every transaction, and before its end, on every path. -/
def Obligations.StopIsAlwaysIssued : Prop :=
  ∀ s t : State, SequencerInv s → StopInv s → step s = .next t → StopInv t

/-- R123 item 3: no data byte follows an address that is not acknowledged. -/
def Obligations.AddressNackMovesNoData : Prop :=
  ∀ s t : State, SequencerInv s → AddressNackInv s → step s = .next t → AddressNackInv t

/-- R117, R120, R123 item 4: while a byte is awaited, automatic ACK is on exactly for every byte but the last. -/
def Obligations.AckIsOffForTheLastByteOnly : Prop :=
  ∀ s t : State, SequencerInv s → AckInv s → step s = .next t → AckInv t

/-- R123 item 6: a transaction stays on the pin pair it was accepted on. -/
def Obligations.TransactionStaysOnItsPinPair : Prop :=
  ∀ s t : State, OnePinInv s → step s = .next t → OnePinInv t

/-- R173, R174: at most one capture in a transaction, and the latch says whether there was one. -/
def Obligations.ErrorIsCapturedAtMostOnce : Prop :=
  ∀ s t : State, LatchInv s → step s = .next t → LatchInv t

/-- R29, R67, R123 item 5: the bytes on the bus are the write buffer's in index order, the read buffer holds the received
bytes in order of reception, and `OK` means that every requested byte was transferred. -/
def Obligations.BuffersMatchTheBus : Prop :=
  ∀ s t : State, SequencerInv s → TransferInv s → step s = .next t → TransferInv t

/-! ## Whole-machine rules -/

/-- R49 item 2, R158, R40: the configuration does not change while a transaction runs, and `DUTY` never changes. -/
def Obligations.ConfigurationIsHeldWhileBusy : Prop :=
  ∀ s t : State, step s = .next t →
    t.duty = s.duty ∧ (s.seq ≠ 0 → t.pin = s.pin ∧ t.hz = s.hz)

/-- The register frame of every instruction: outside the instructions named, each register keeps its value
(R25–R30, R34, R36–R42, R45, R101–R122, R150–R154). -/
def Obligations.InstructionsChangeOnlyTheirRegisters : Prop :=
  ∀ (i : Instr) (s t : State), exec i s = .next t →
    let isExecute := ∃ a wl rl, i = .execute a wl rl
    let isSelectPins := ∃ p, i = .selectPins p
    let isPoll := i = .waitFree ∨ i = .waitSb ∨ i = .waitAddr ∨ i = .waitBtf ∨ i = .waitRxne
    (t.now = s.now ∧ t.speedArg = s.speedArg ∧ t.duty = s.duty ∧ t.agenda = s.agenda ∧ t.returned = s.returned) ∧
    (¬isSelectPins → t.pin = s.pin) ∧
    (i ≠ .setSpeed → t.hz = s.hz) ∧
    (¬isExecute → t.reqAddr = s.reqAddr ∧ t.reqWlen = s.reqWlen ∧ t.reqRlen = s.reqRlen ∧
      t.deadline = s.deadline ∧ t.latchSet = s.latchSet ∧ t.latchBits = s.latchBits) ∧
    (¬isExecute → ¬isSelectPins → i ≠ .setSpeed → t.resp = s.resp) ∧
    (¬isExecute → i ≠ .doErrOff → t.result = s.result) ∧
    (i ≠ .doAckSetup → i ≠ .doAckOff → ¬isSelectPins → i ≠ .setSpeed → t.crAck = s.crAck) ∧
    (¬isExecute → i ≠ .doErrOff → ¬isSelectPins → i ≠ .setSpeed → t.crErrie = s.crErrie) ∧
    (¬isExecute → i ≠ .waitBtf → t.ph = s.ph) ∧
    (¬isExecute → i ≠ .waitAddr → i ≠ .waitBtf → i ≠ .doAckSetup → i ≠ .doRxRead → t.idx = s.idx) ∧
    (¬isExecute → ¬isPoll → i ≠ .doRxRead → i ≠ .doErrOff → t.outcome = s.outcome) ∧
    (¬isSelectPins → i ≠ .setSpeed → i ≠ .doTx → t.fault = s.fault) ∧
    (¬isPoll → t.srIn = s.srIn) ∧
    (i ≠ .doRxRead → t.drIn = s.drIn) ∧
    (¬isPoll → i ≠ .doRxRead → t.draws = s.draws)

/-- The memory frame of every instruction: no instruction writes the write buffer, EXECUTE and DO_ERR_OFF may clear the
read buffer, DO_RX_READ stores at `IDX` alone (nowhere past the last cell, log entry 7), and nothing else touches it (R28, R29, R101,
R119, R122). -/
def Obligations.InstructionsStoreOnlyTheReceivedByte : Prop :=
  ∀ (i : Instr) (s t : State), exec i s = .next t →
    (∀ a, Memory.read t.wbuf a = Memory.read s.wbuf a) ∧
    (i = .doRxRead → (s.idx.toNat < 128 → Memory.read t.rbuf s.idx.toNat = some (nextDR s)) ∧
      ∀ a, (s.idx.toNat < 128 → a ≠ s.idx.toNat) → Memory.read t.rbuf a = Memory.read s.rbuf a) ∧
    ((¬∃ ad wl rl, i = .execute ad wl rl) → i ≠ .doErrOff → i ≠ .doRxRead →
      ∀ a, Memory.read t.rbuf a = Memory.read s.rbuf a)

/-- R46: the history only grows, and no step depends on it. -/
def Obligations.HistoryOnlyGrowsAndIsNeverRead : Prop :=
  (∀ s t : State, step s = .next t → ∃ es, t.hist = s.hist ++ es) ∧
    ∀ (s : State) (h : List Event),
      onNext (fun t => { t with hist := [] }) (step { s with hist := h }) =
        onNext (fun t => { t with hist := [] }) (step s)

/-- R178: nothing depends on `LATCH_BITS`. -/
def Obligations.LatchBitsAreNeverRead : Prop :=
  ∀ (s : State) (b : LatchWord),
    onNext (fun t => { t with latchBits := 0 }) (step { s with latchBits := b }) =
      onNext (fun t => { t with latchBits := 0 }) (step s)

/-- R126: the successors of the micro-states 1 to 13; a fault leaves `SEQ` as it was. The first clause, that an ENGINE turn
at `IDLE` keeps `IDLE`, is no row of R126 but the model's choice (log entry 6). -/
def Obligations.MicroStatesHaveOnlyTheirSuccessors : Prop :=
  ∀ s t : State, engineStep s = .next t → t.fault = [] →
    (s.seq = 0 → t.seq = 0) ∧
    (s.seq = 1 → t.seq = 1 ∨ t.seq = 2 ∨ t.seq = 12) ∧
    (s.seq = 2 → t.seq = 3) ∧
    (s.seq = 3 → t.seq = 3 ∨ t.seq = 4 ∨ t.seq = 12) ∧
    (s.seq = 4 → t.seq = 5) ∧
    (s.seq = 5 → t.seq = 5 ∨ t.seq = 6 ∨ t.seq = 8 ∨ t.seq = 12) ∧
    (s.seq = 6 → t.seq = 7) ∧
    (s.seq = 7 → t.seq = 7 ∨ t.seq = 6 ∨ t.seq = 2 ∨ t.seq = 12) ∧
    (s.seq = 8 → t.seq = 9) ∧
    (s.seq = 9 → t.seq = 9 ∨ t.seq = 10 ∨ t.seq = 12) ∧
    (s.seq = 10 → t.seq = 9 ∨ t.seq = 11 ∨ t.seq = 12) ∧
    (s.seq = 11 → t.seq = 9) ∧
    (s.seq = 12 → t.seq = 13) ∧
    (s.seq = 13 → t.seq = 0)

/-! ## The watchdog and how long a transaction takes -/

/-- R189: `timed_out()` holds exactly from the 51st tick after the accept to the `2^31 + 49`th, the count mod 2^32. -/
def Obligations.DeadlinePassesInItsWindow : Prop :=
  ∀ (s : State) (now0 : Tick), s.deadline = now0 + 50 →
    (timedOut s = true ↔ 51 ≤ (s.now - now0).toNat ∧ (s.now - now0).toNat ≤ 2 ^ 31 + 49)

/-- R124: `S_min` after the accept, at most 517 (R190), and one less after each ENGINE step whose poll is answered at
once. -/
def Obligations.AnsweredStepsCountDownFromSMin : Prop :=
  (∀ (addr : Addr) (wlen rlen : BitVec 8) (s t : State), s.fault = [] → s.seq = 0 →
    Instr.WellFormed (.execute addr wlen rlen) → exec (.execute addr wlen rlen) s = .next t →
    stepsLeft t = minSteps wlen.toNat rlen.toNat ∧ stepsLeft t ≤ 517) ∧
  ∀ s : State, s.fault = [] → SequencerInv s → s.seq ≠ 0 → favourable s = true →
    ∃ t, engineStep s = .next t ∧ t.fault = [] ∧ stepsLeft t + 1 = stepsLeft s

/-- R190's bound of 517 micro-states: once its deadline has passed, a transaction ends within 517 ENGINE steps in a row,
whatever the BUS answers, or faults on a write byte that HOST never wrote. ENGINE steps in a row stand here in place of
R190's fairness, which the step does not assume (log entry 12). -/
def Obligations.ExpiredTransactionEndsOrFaults : Prop :=
  ∀ s : State, s.fault = [] → SequencerInv s → timedOut s = true →
    ∃ n t, n ≤ 517 ∧ engineRun n s = .next t ∧ (t.seq = 0 ∨ t.fault = [.wbufUnwritten])

/-- R190: in every run that meets its two conditions (TICK and the ENGINE weakly fair, and at most `2^31 - 1` ticks between
two ENGINE steps of a transaction), whatever HOST, the BUS and the error events do, `SEQ` is `IDLE` again after every
state. A run is infinite and so reaches no fault. The conditions are an assumption of the spec (log entry 12). -/
def Obligations.EveryTransactionEndsOnAFairRun : Prop :=
  ∀ r : Run, r.Fair → SequencerInv (r.state 0) → ∀ n, ∃ m, n ≤ m ∧ (r.state m).seq = 0
end

