-- ==== Sys2Proof/Laws/Memory.lean ====
section
/-! SUPPORT. The laws of a buffer: what a read gives after a write, and that a write keeps the canonical form. -/

namespace Sys2Proof.Machine

open Sys2Proof

@[simp] theorem read_nil (a : Nat) : Memory.read [] a = none := rfl

@[simp] theorem read_cons (c : Host.Cell) (m : Memory) (a : Nat) :
    Memory.read (c :: m) a = if c.1 = a then some c.2 else Memory.read m a := rfl

/-- A read of the written index gives the written byte, whatever the list. -/
@[simp] theorem read_write_same (m : Memory) (a : Nat) (b : Byte) :
    Memory.read (Memory.write m a b) a = some b := by
  induction m with
  | nil => simp [Memory.write]
  | cons c m ih =>
    simp only [Memory.write]
    split
    · simp
    · split
      · simp
      · next h => simp [h, ih]

/-- A write leaves every other index as it was. -/
theorem read_write_other (m : Memory) (a a' : Nat) (b : Byte) (h : a ≠ a') :
    Memory.read (Memory.write m a b) a' = Memory.read m a' := by
  induction m with
  | nil => simp [Memory.write, h]
  | cons c m ih =>
    simp only [Memory.write]
    split
    · simp [h]
    · split
      · next hc => subst hc; simp [h]
      · simp [ih]

theorem risesFrom_mono {size lo lo' : Nat} {m : Memory} (h : Memory.risesFrom size lo m = true) (hl : lo' ≤ lo) :
    Memory.risesFrom size lo' m = true := by
  cases m with
  | nil => rfl
  | cons c m =>
    simp only [Memory.risesFrom, Bool.and_eq_true, decide_eq_true_eq] at h ⊢
    exact ⟨⟨hl.trans h.1.1, h.1.2⟩, h.2⟩

theorem write_risesFrom {size lo a : Nat} {m : Memory} (b : Byte) (h : Memory.risesFrom size lo m = true)
    (hl : lo ≤ a) (ha : a < size) : Memory.risesFrom size lo (Memory.write m a b) = true := by
  induction m generalizing lo with
  | nil => simp [Memory.write, Memory.risesFrom, hl, ha]
  | cons c m ih =>
    simp only [Memory.risesFrom, Bool.and_eq_true, decide_eq_true_eq] at h
    simp only [Memory.write]
    split
    · next hlt =>
      simp only [Memory.risesFrom, Bool.and_eq_true, decide_eq_true_eq]
      exact ⟨⟨hl, ha⟩, ⟨hlt, h.1.2⟩, h.2⟩
    · split
      · next heq =>
        subst heq
        simp only [Memory.risesFrom, Bool.and_eq_true, decide_eq_true_eq]
        exact ⟨⟨hl, ha⟩, h.2⟩
      · simp only [Memory.risesFrom, Bool.and_eq_true, decide_eq_true_eq]
        exact ⟨h.1, ih h.2 (by omega)⟩

/-- A write inside the buffer keeps the canonical form. -/
theorem write_wf {size a : Nat} {m : Memory} (b : Byte) (h : Memory.wf size m = true) (ha : a < size) :
    Memory.wf size (Memory.write m a b) = true :=
  write_risesFrom b h (Nat.zero_le a) ha

@[simp] theorem wf_nil (size : Nat) : Memory.wf size [] = true := rfl

/-- A cell holds a byte exactly where the buffer has the cell and its list the byte. -/
@[simp] theorem cell_eq_some {size a : Nat} {m : Memory} {b : Byte} :
    Memory.cell size m a = some b ↔ a < size ∧ Memory.read m a = some b := by
  unfold Memory.cell
  split <;> simp_all

/-- Past the last cell there is no byte. -/
theorem cell_of_le {size a : Nat} (m : Memory) (ha : size ≤ a) : Memory.cell size m a = none :=
  if_neg (Nat.not_lt.mpr ha)

/-- Inside the buffer a cell is what its list reads as. -/
theorem cell_of_lt {size a : Nat} (m : Memory) (ha : a < size) : Memory.cell size m a = Memory.read m a := if_pos ha

/-- Inside the buffer a store is a write. -/
theorem store_of_lt {size a : Nat} (m : Memory) (b : Byte) (ha : a < size) :
    Memory.store size m a b = Memory.write m a b := if_pos ha

/-- Past the last cell a store does nothing. -/
theorem store_of_le {size a : Nat} (m : Memory) (b : Byte) (ha : size ≤ a) : Memory.store size m a b = m :=
  if_neg (Nat.not_lt.mpr ha)

/-- A store keeps the canonical form, whatever the index. -/
theorem store_wf {size : Nat} {m : Memory} (a : Nat) (b : Byte) (h : Memory.wf size m = true) :
    Memory.wf size (Memory.store size m a b) = true := by
  unfold Memory.store
  split
  · next ha => exact write_wf b h ha
  · exact h

/-- What any index reads as after a store. -/
theorem read_store (size : Nat) (m : Memory) (a k : Nat) (b : Byte) :
    Memory.read (Memory.store size m a b) k = if k = a ∧ a < size then some b else Memory.read m k := by
  unfold Memory.store
  split
  · next ha =>
    split
    · next h => rw [h.1, read_write_same]
    · next h => exact read_write_other m a k b (fun e => h ⟨e.symm, ha⟩)
  · next ha => rw [if_neg (fun h => ha h.2)]

/-- After reset both buffers are in canonical form. -/
theorem reset_wf :
    Memory.wf Config.maxWrite State.reset.wbuf = true ∧ Memory.wf Config.maxRead State.reset.rbuf = true :=
  ⟨rfl, rfl⟩

/-- In canonical form nothing is listed outside the buffer. -/
theorem read_of_wf {size : Nat} {m : Memory} (h : Memory.wf size m = true) {a : Nat} (ha : size ≤ a) :
    Memory.read m a = none := by
  have key : ∀ lo, Memory.risesFrom size lo m = true → Memory.read m a = none := by
    clear h
    induction m with
    | nil => simp
    | cons c m ih =>
      intro lo h
      simp only [Memory.risesFrom, Bool.and_eq_true, decide_eq_true_eq] at h
      rw [read_cons, if_neg (by omega), ih _ h.2]
  exact key 0 h

end Sys2Proof.Machine
end

