-- ==== Sys2Proof/Laws/State.lean ====
section
/-! SUPPORT. What each state update leaves in each field: one lemma per field per update, true by rfl, so that no
proof unfolds a record update. -/

namespace Sys2Proof.Machine

open Sys2Proof

variable (s : State)

/-! Fields after an appended event. -/

@[simp] theorem emit_seq (e : Event) : (emit e s).seq = s.seq := rfl
@[simp] theorem emit_ph (e : Event) : (emit e s).ph = s.ph := rfl
@[simp] theorem emit_idx (e : Event) : (emit e s).idx = s.idx := rfl
@[simp] theorem emit_outcome (e : Event) : (emit e s).outcome = s.outcome := rfl
@[simp] theorem emit_deadline (e : Event) : (emit e s).deadline = s.deadline := rfl
@[simp] theorem emit_reqAddr (e : Event) : (emit e s).reqAddr = s.reqAddr := rfl
@[simp] theorem emit_reqWlen (e : Event) : (emit e s).reqWlen = s.reqWlen := rfl
@[simp] theorem emit_reqRlen (e : Event) : (emit e s).reqRlen = s.reqRlen := rfl
@[simp] theorem emit_wbuf (e : Event) : (emit e s).wbuf = s.wbuf := rfl
@[simp] theorem emit_rbuf (e : Event) : (emit e s).rbuf = s.rbuf := rfl
@[simp] theorem emit_resp (e : Event) : (emit e s).resp = s.resp := rfl
@[simp] theorem emit_result (e : Event) : (emit e s).result = s.result := rfl
@[simp] theorem emit_crAck (e : Event) : (emit e s).crAck = s.crAck := rfl
@[simp] theorem emit_crErrie (e : Event) : (emit e s).crErrie = s.crErrie := rfl
@[simp] theorem emit_latchSet (e : Event) : (emit e s).latchSet = s.latchSet := rfl
@[simp] theorem emit_latchBits (e : Event) : (emit e s).latchBits = s.latchBits := rfl
@[simp] theorem emit_now (e : Event) : (emit e s).now = s.now := rfl
@[simp] theorem emit_pin (e : Event) : (emit e s).pin = s.pin := rfl
@[simp] theorem emit_hz (e : Event) : (emit e s).hz = s.hz := rfl
@[simp] theorem emit_duty (e : Event) : (emit e s).duty = s.duty := rfl
@[simp] theorem emit_speedArg (e : Event) : (emit e s).speedArg = s.speedArg := rfl
@[simp] theorem emit_fault (e : Event) : (emit e s).fault = s.fault := rfl
@[simp] theorem emit_hist (e : Event) : (emit e s).hist = s.hist ++ [e] := rfl
@[simp] theorem emit_agenda (e : Event) : (emit e s).agenda = s.agenda := rfl
@[simp] theorem emit_srIn (e : Event) : (emit e s).srIn = s.srIn := rfl
@[simp] theorem emit_drIn (e : Event) : (emit e s).drIn = s.drIn := rfl
@[simp] theorem emit_draws (e : Event) : (emit e s).draws = s.draws := rfl
@[simp] theorem emit_returned (e : Event) : (emit e s).returned = s.returned := rfl

/-! Fields after a micro-state change. -/

@[simp] theorem goto_seq (c : BitVec 4) : (goto c s).seq = c := rfl
@[simp] theorem goto_ph (c : BitVec 4) : (goto c s).ph = s.ph := rfl
@[simp] theorem goto_idx (c : BitVec 4) : (goto c s).idx = s.idx := rfl
@[simp] theorem goto_outcome (c : BitVec 4) : (goto c s).outcome = s.outcome := rfl
@[simp] theorem goto_deadline (c : BitVec 4) : (goto c s).deadline = s.deadline := rfl
@[simp] theorem goto_reqAddr (c : BitVec 4) : (goto c s).reqAddr = s.reqAddr := rfl
@[simp] theorem goto_reqWlen (c : BitVec 4) : (goto c s).reqWlen = s.reqWlen := rfl
@[simp] theorem goto_reqRlen (c : BitVec 4) : (goto c s).reqRlen = s.reqRlen := rfl
@[simp] theorem goto_wbuf (c : BitVec 4) : (goto c s).wbuf = s.wbuf := rfl
@[simp] theorem goto_rbuf (c : BitVec 4) : (goto c s).rbuf = s.rbuf := rfl
@[simp] theorem goto_resp (c : BitVec 4) : (goto c s).resp = s.resp := rfl
@[simp] theorem goto_result (c : BitVec 4) : (goto c s).result = s.result := rfl
@[simp] theorem goto_crAck (c : BitVec 4) : (goto c s).crAck = s.crAck := rfl
@[simp] theorem goto_crErrie (c : BitVec 4) : (goto c s).crErrie = s.crErrie := rfl
@[simp] theorem goto_latchSet (c : BitVec 4) : (goto c s).latchSet = s.latchSet := rfl
@[simp] theorem goto_latchBits (c : BitVec 4) : (goto c s).latchBits = s.latchBits := rfl
@[simp] theorem goto_now (c : BitVec 4) : (goto c s).now = s.now := rfl
@[simp] theorem goto_pin (c : BitVec 4) : (goto c s).pin = s.pin := rfl
@[simp] theorem goto_hz (c : BitVec 4) : (goto c s).hz = s.hz := rfl
@[simp] theorem goto_duty (c : BitVec 4) : (goto c s).duty = s.duty := rfl
@[simp] theorem goto_speedArg (c : BitVec 4) : (goto c s).speedArg = s.speedArg := rfl
@[simp] theorem goto_fault (c : BitVec 4) : (goto c s).fault = s.fault := rfl
@[simp] theorem goto_hist (c : BitVec 4) : (goto c s).hist = s.hist := rfl
@[simp] theorem goto_agenda (c : BitVec 4) : (goto c s).agenda = s.agenda := rfl
@[simp] theorem goto_srIn (c : BitVec 4) : (goto c s).srIn = s.srIn := rfl
@[simp] theorem goto_drIn (c : BitVec 4) : (goto c s).drIn = s.drIn := rfl
@[simp] theorem goto_draws (c : BitVec 4) : (goto c s).draws = s.draws := rfl
@[simp] theorem goto_returned (c : BitVec 4) : (goto c s).returned = s.returned := rfl

/-! Fields after the abort entry. -/

@[simp] theorem finish_seq (code : ResCode) : (finish code s).seq = Seq.doStop := rfl
@[simp] theorem finish_ph (code : ResCode) : (finish code s).ph = s.ph := rfl
@[simp] theorem finish_idx (code : ResCode) : (finish code s).idx = s.idx := rfl
@[simp] theorem finish_outcome (code : ResCode) : (finish code s).outcome = code := rfl
@[simp] theorem finish_deadline (code : ResCode) : (finish code s).deadline = s.deadline := rfl
@[simp] theorem finish_reqAddr (code : ResCode) : (finish code s).reqAddr = s.reqAddr := rfl
@[simp] theorem finish_reqWlen (code : ResCode) : (finish code s).reqWlen = s.reqWlen := rfl
@[simp] theorem finish_reqRlen (code : ResCode) : (finish code s).reqRlen = s.reqRlen := rfl
@[simp] theorem finish_wbuf (code : ResCode) : (finish code s).wbuf = s.wbuf := rfl
@[simp] theorem finish_rbuf (code : ResCode) : (finish code s).rbuf = s.rbuf := rfl
@[simp] theorem finish_resp (code : ResCode) : (finish code s).resp = s.resp := rfl
@[simp] theorem finish_result (code : ResCode) : (finish code s).result = s.result := rfl
@[simp] theorem finish_crAck (code : ResCode) : (finish code s).crAck = s.crAck := rfl
@[simp] theorem finish_crErrie (code : ResCode) : (finish code s).crErrie = s.crErrie := rfl
@[simp] theorem finish_latchSet (code : ResCode) : (finish code s).latchSet = s.latchSet := rfl
@[simp] theorem finish_latchBits (code : ResCode) : (finish code s).latchBits = s.latchBits := rfl
@[simp] theorem finish_now (code : ResCode) : (finish code s).now = s.now := rfl
@[simp] theorem finish_pin (code : ResCode) : (finish code s).pin = s.pin := rfl
@[simp] theorem finish_hz (code : ResCode) : (finish code s).hz = s.hz := rfl
@[simp] theorem finish_duty (code : ResCode) : (finish code s).duty = s.duty := rfl
@[simp] theorem finish_speedArg (code : ResCode) : (finish code s).speedArg = s.speedArg := rfl
@[simp] theorem finish_fault (code : ResCode) : (finish code s).fault = s.fault := rfl
@[simp] theorem finish_hist (code : ResCode) : (finish code s).hist = s.hist := rfl
@[simp] theorem finish_agenda (code : ResCode) : (finish code s).agenda = s.agenda := rfl
@[simp] theorem finish_srIn (code : ResCode) : (finish code s).srIn = s.srIn := rfl
@[simp] theorem finish_drIn (code : ResCode) : (finish code s).drIn = s.drIn := rfl
@[simp] theorem finish_draws (code : ResCode) : (finish code s).draws = s.draws := rfl
@[simp] theorem finish_returned (code : ResCode) : (finish code s).returned = s.returned := rfl

/-! Fields after a raised fault. -/

@[simp] theorem raise_seq (r : Reason) : (raise r s).seq = s.seq := rfl
@[simp] theorem raise_ph (r : Reason) : (raise r s).ph = s.ph := rfl
@[simp] theorem raise_idx (r : Reason) : (raise r s).idx = s.idx := rfl
@[simp] theorem raise_outcome (r : Reason) : (raise r s).outcome = s.outcome := rfl
@[simp] theorem raise_deadline (r : Reason) : (raise r s).deadline = s.deadline := rfl
@[simp] theorem raise_reqAddr (r : Reason) : (raise r s).reqAddr = s.reqAddr := rfl
@[simp] theorem raise_reqWlen (r : Reason) : (raise r s).reqWlen = s.reqWlen := rfl
@[simp] theorem raise_reqRlen (r : Reason) : (raise r s).reqRlen = s.reqRlen := rfl
@[simp] theorem raise_wbuf (r : Reason) : (raise r s).wbuf = s.wbuf := rfl
@[simp] theorem raise_rbuf (r : Reason) : (raise r s).rbuf = s.rbuf := rfl
@[simp] theorem raise_resp (r : Reason) : (raise r s).resp = s.resp := rfl
@[simp] theorem raise_result (r : Reason) : (raise r s).result = s.result := rfl
@[simp] theorem raise_crAck (r : Reason) : (raise r s).crAck = s.crAck := rfl
@[simp] theorem raise_crErrie (r : Reason) : (raise r s).crErrie = s.crErrie := rfl
@[simp] theorem raise_latchSet (r : Reason) : (raise r s).latchSet = s.latchSet := rfl
@[simp] theorem raise_latchBits (r : Reason) : (raise r s).latchBits = s.latchBits := rfl
@[simp] theorem raise_now (r : Reason) : (raise r s).now = s.now := rfl
@[simp] theorem raise_pin (r : Reason) : (raise r s).pin = s.pin := rfl
@[simp] theorem raise_hz (r : Reason) : (raise r s).hz = s.hz := rfl
@[simp] theorem raise_duty (r : Reason) : (raise r s).duty = s.duty := rfl
@[simp] theorem raise_speedArg (r : Reason) : (raise r s).speedArg = s.speedArg := rfl
@[simp] theorem raise_fault (r : Reason) : (raise r s).fault = s.fault.insert r := rfl
@[simp] theorem raise_hist (r : Reason) : (raise r s).hist = s.hist := rfl
@[simp] theorem raise_agenda (r : Reason) : (raise r s).agenda = s.agenda := rfl
@[simp] theorem raise_srIn (r : Reason) : (raise r s).srIn = s.srIn := rfl
@[simp] theorem raise_drIn (r : Reason) : (raise r s).drIn = s.drIn := rfl
@[simp] theorem raise_draws (r : Reason) : (raise r s).draws = s.draws := rfl
@[simp] theorem raise_returned (r : Reason) : (raise r s).returned = s.returned := rfl

/-! Fields after a status read. -/

@[simp] theorem sampleSR_seq : (sampleSR s).seq = s.seq := rfl
@[simp] theorem sampleSR_ph : (sampleSR s).ph = s.ph := rfl
@[simp] theorem sampleSR_idx : (sampleSR s).idx = s.idx := rfl
@[simp] theorem sampleSR_outcome : (sampleSR s).outcome = s.outcome := rfl
@[simp] theorem sampleSR_deadline : (sampleSR s).deadline = s.deadline := rfl
@[simp] theorem sampleSR_reqAddr : (sampleSR s).reqAddr = s.reqAddr := rfl
@[simp] theorem sampleSR_reqWlen : (sampleSR s).reqWlen = s.reqWlen := rfl
@[simp] theorem sampleSR_reqRlen : (sampleSR s).reqRlen = s.reqRlen := rfl
@[simp] theorem sampleSR_wbuf : (sampleSR s).wbuf = s.wbuf := rfl
@[simp] theorem sampleSR_rbuf : (sampleSR s).rbuf = s.rbuf := rfl
@[simp] theorem sampleSR_resp : (sampleSR s).resp = s.resp := rfl
@[simp] theorem sampleSR_result : (sampleSR s).result = s.result := rfl
@[simp] theorem sampleSR_crAck : (sampleSR s).crAck = s.crAck := rfl
@[simp] theorem sampleSR_crErrie : (sampleSR s).crErrie = s.crErrie := rfl
@[simp] theorem sampleSR_latchSet : (sampleSR s).latchSet = s.latchSet := rfl
@[simp] theorem sampleSR_latchBits : (sampleSR s).latchBits = s.latchBits := rfl
@[simp] theorem sampleSR_now : (sampleSR s).now = s.now := rfl
@[simp] theorem sampleSR_pin : (sampleSR s).pin = s.pin := rfl
@[simp] theorem sampleSR_hz : (sampleSR s).hz = s.hz := rfl
@[simp] theorem sampleSR_duty : (sampleSR s).duty = s.duty := rfl
@[simp] theorem sampleSR_speedArg : (sampleSR s).speedArg = s.speedArg := rfl
@[simp] theorem sampleSR_fault : (sampleSR s).fault = s.fault := rfl
@[simp] theorem sampleSR_hist : (sampleSR s).hist = s.hist ++ [.sr (nextSR s)] := rfl
@[simp] theorem sampleSR_agenda : (sampleSR s).agenda = s.agenda := rfl
@[simp] theorem sampleSR_srIn : (sampleSR s).srIn = s.srIn.tail := rfl
@[simp] theorem sampleSR_drIn : (sampleSR s).drIn = s.drIn := rfl
@[simp] theorem sampleSR_draws : (sampleSR s).draws = s.draws + (if s.srIn.isEmpty then 1 else 0) := rfl
@[simp] theorem sampleSR_returned : (sampleSR s).returned = s.returned := rfl

/-! Fields after a data read. -/

@[simp] theorem sampleDR_seq : (sampleDR s).seq = s.seq := rfl
@[simp] theorem sampleDR_ph : (sampleDR s).ph = s.ph := rfl
@[simp] theorem sampleDR_idx : (sampleDR s).idx = s.idx := rfl
@[simp] theorem sampleDR_outcome : (sampleDR s).outcome = s.outcome := rfl
@[simp] theorem sampleDR_deadline : (sampleDR s).deadline = s.deadline := rfl
@[simp] theorem sampleDR_reqAddr : (sampleDR s).reqAddr = s.reqAddr := rfl
@[simp] theorem sampleDR_reqWlen : (sampleDR s).reqWlen = s.reqWlen := rfl
@[simp] theorem sampleDR_reqRlen : (sampleDR s).reqRlen = s.reqRlen := rfl
@[simp] theorem sampleDR_wbuf : (sampleDR s).wbuf = s.wbuf := rfl
@[simp] theorem sampleDR_rbuf : (sampleDR s).rbuf = s.rbuf := rfl
@[simp] theorem sampleDR_resp : (sampleDR s).resp = s.resp := rfl
@[simp] theorem sampleDR_result : (sampleDR s).result = s.result := rfl
@[simp] theorem sampleDR_crAck : (sampleDR s).crAck = s.crAck := rfl
@[simp] theorem sampleDR_crErrie : (sampleDR s).crErrie = s.crErrie := rfl
@[simp] theorem sampleDR_latchSet : (sampleDR s).latchSet = s.latchSet := rfl
@[simp] theorem sampleDR_latchBits : (sampleDR s).latchBits = s.latchBits := rfl
@[simp] theorem sampleDR_now : (sampleDR s).now = s.now := rfl
@[simp] theorem sampleDR_pin : (sampleDR s).pin = s.pin := rfl
@[simp] theorem sampleDR_hz : (sampleDR s).hz = s.hz := rfl
@[simp] theorem sampleDR_duty : (sampleDR s).duty = s.duty := rfl
@[simp] theorem sampleDR_speedArg : (sampleDR s).speedArg = s.speedArg := rfl
@[simp] theorem sampleDR_fault : (sampleDR s).fault = s.fault := rfl
@[simp] theorem sampleDR_hist : (sampleDR s).hist = s.hist ++ [.rx (nextDR s)] := rfl
@[simp] theorem sampleDR_agenda : (sampleDR s).agenda = s.agenda := rfl
@[simp] theorem sampleDR_srIn : (sampleDR s).srIn = s.srIn := rfl
@[simp] theorem sampleDR_drIn : (sampleDR s).drIn = s.drIn.tail := rfl
@[simp] theorem sampleDR_draws : (sampleDR s).draws = s.draws + (if s.drIn.isEmpty then 1 else 0) := rfl
@[simp] theorem sampleDR_returned : (sampleDR s).returned = s.returned := rfl

/-! Fields after a reinit. -/

@[simp] theorem reinit_seq : (reinit s).seq = s.seq := rfl
@[simp] theorem reinit_ph : (reinit s).ph = s.ph := rfl
@[simp] theorem reinit_idx : (reinit s).idx = s.idx := rfl
@[simp] theorem reinit_outcome : (reinit s).outcome = s.outcome := rfl
@[simp] theorem reinit_deadline : (reinit s).deadline = s.deadline := rfl
@[simp] theorem reinit_reqAddr : (reinit s).reqAddr = s.reqAddr := rfl
@[simp] theorem reinit_reqWlen : (reinit s).reqWlen = s.reqWlen := rfl
@[simp] theorem reinit_reqRlen : (reinit s).reqRlen = s.reqRlen := rfl
@[simp] theorem reinit_wbuf : (reinit s).wbuf = s.wbuf := rfl
@[simp] theorem reinit_rbuf : (reinit s).rbuf = s.rbuf := rfl
@[simp] theorem reinit_resp : (reinit s).resp = s.resp := rfl
@[simp] theorem reinit_result : (reinit s).result = s.result := rfl
@[simp] theorem reinit_crAck : (reinit s).crAck = false := rfl
@[simp] theorem reinit_crErrie : (reinit s).crErrie = false := rfl
@[simp] theorem reinit_latchSet : (reinit s).latchSet = s.latchSet := rfl
@[simp] theorem reinit_latchBits : (reinit s).latchBits = s.latchBits := rfl
@[simp] theorem reinit_now : (reinit s).now = s.now := rfl
@[simp] theorem reinit_pin : (reinit s).pin = s.pin := rfl
@[simp] theorem reinit_hz : (reinit s).hz = s.hz := rfl
@[simp] theorem reinit_duty : (reinit s).duty = s.duty := rfl
@[simp] theorem reinit_speedArg : (reinit s).speedArg = s.speedArg := rfl
@[simp] theorem reinit_fault : (reinit s).fault = s.fault := rfl
@[simp] theorem reinit_hist : (reinit s).hist = s.hist ++ [.reinit s.pin s.hz s.duty] := rfl
@[simp] theorem reinit_agenda : (reinit s).agenda = s.agenda := rfl
@[simp] theorem reinit_srIn : (reinit s).srIn = s.srIn := rfl
@[simp] theorem reinit_drIn : (reinit s).drIn = s.drIn := rfl
@[simp] theorem reinit_draws : (reinit s).draws = s.draws := rfl
@[simp] theorem reinit_returned : (reinit s).returned = s.returned := rfl

/-! Fields after an error capture. -/

@[simp] theorem captureError_seq (bits : LatchWord) : (captureError bits s).seq = s.seq := rfl
@[simp] theorem captureError_ph (bits : LatchWord) : (captureError bits s).ph = s.ph := rfl
@[simp] theorem captureError_idx (bits : LatchWord) : (captureError bits s).idx = s.idx := rfl
@[simp] theorem captureError_outcome (bits : LatchWord) : (captureError bits s).outcome = s.outcome := rfl
@[simp] theorem captureError_deadline (bits : LatchWord) : (captureError bits s).deadline = s.deadline := rfl
@[simp] theorem captureError_reqAddr (bits : LatchWord) : (captureError bits s).reqAddr = s.reqAddr := rfl
@[simp] theorem captureError_reqWlen (bits : LatchWord) : (captureError bits s).reqWlen = s.reqWlen := rfl
@[simp] theorem captureError_reqRlen (bits : LatchWord) : (captureError bits s).reqRlen = s.reqRlen := rfl
@[simp] theorem captureError_wbuf (bits : LatchWord) : (captureError bits s).wbuf = s.wbuf := rfl
@[simp] theorem captureError_rbuf (bits : LatchWord) : (captureError bits s).rbuf = s.rbuf := rfl
@[simp] theorem captureError_resp (bits : LatchWord) : (captureError bits s).resp = s.resp := rfl
@[simp] theorem captureError_result (bits : LatchWord) : (captureError bits s).result = s.result := rfl
@[simp] theorem captureError_crAck (bits : LatchWord) : (captureError bits s).crAck = s.crAck := rfl
@[simp] theorem captureError_crErrie (bits : LatchWord) : (captureError bits s).crErrie = false := rfl
@[simp] theorem captureError_latchSet (bits : LatchWord) : (captureError bits s).latchSet = true := rfl
@[simp] theorem captureError_latchBits (bits : LatchWord) : (captureError bits s).latchBits = bits := rfl
@[simp] theorem captureError_now (bits : LatchWord) : (captureError bits s).now = s.now := rfl
@[simp] theorem captureError_pin (bits : LatchWord) : (captureError bits s).pin = s.pin := rfl
@[simp] theorem captureError_hz (bits : LatchWord) : (captureError bits s).hz = s.hz := rfl
@[simp] theorem captureError_duty (bits : LatchWord) : (captureError bits s).duty = s.duty := rfl
@[simp] theorem captureError_speedArg (bits : LatchWord) : (captureError bits s).speedArg = s.speedArg := rfl
@[simp] theorem captureError_fault (bits : LatchWord) : (captureError bits s).fault = s.fault := rfl
@[simp] theorem captureError_hist (bits : LatchWord) : (captureError bits s).hist = s.hist ++ [.errlatch bits, .errie false] := rfl
@[simp] theorem captureError_agenda (bits : LatchWord) : (captureError bits s).agenda = s.agenda := rfl
@[simp] theorem captureError_srIn (bits : LatchWord) : (captureError bits s).srIn = s.srIn := rfl
@[simp] theorem captureError_drIn (bits : LatchWord) : (captureError bits s).drIn = s.drIn := rfl
@[simp] theorem captureError_draws (bits : LatchWord) : (captureError bits s).draws = s.draws := rfl
@[simp] theorem captureError_returned (bits : LatchWord) : (captureError bits s).returned = s.returned := rfl

/-! Fields after a turn taken off. -/

@[simp] theorem takeTurn_seq : (takeTurn s).seq = s.seq := rfl
@[simp] theorem takeTurn_ph : (takeTurn s).ph = s.ph := rfl
@[simp] theorem takeTurn_idx : (takeTurn s).idx = s.idx := rfl
@[simp] theorem takeTurn_outcome : (takeTurn s).outcome = s.outcome := rfl
@[simp] theorem takeTurn_deadline : (takeTurn s).deadline = s.deadline := rfl
@[simp] theorem takeTurn_reqAddr : (takeTurn s).reqAddr = s.reqAddr := rfl
@[simp] theorem takeTurn_reqWlen : (takeTurn s).reqWlen = s.reqWlen := rfl
@[simp] theorem takeTurn_reqRlen : (takeTurn s).reqRlen = s.reqRlen := rfl
@[simp] theorem takeTurn_wbuf : (takeTurn s).wbuf = s.wbuf := rfl
@[simp] theorem takeTurn_rbuf : (takeTurn s).rbuf = s.rbuf := rfl
@[simp] theorem takeTurn_resp : (takeTurn s).resp = s.resp := rfl
@[simp] theorem takeTurn_result : (takeTurn s).result = s.result := rfl
@[simp] theorem takeTurn_crAck : (takeTurn s).crAck = s.crAck := rfl
@[simp] theorem takeTurn_crErrie : (takeTurn s).crErrie = s.crErrie := rfl
@[simp] theorem takeTurn_latchSet : (takeTurn s).latchSet = s.latchSet := rfl
@[simp] theorem takeTurn_latchBits : (takeTurn s).latchBits = s.latchBits := rfl
@[simp] theorem takeTurn_now : (takeTurn s).now = s.now := rfl
@[simp] theorem takeTurn_pin : (takeTurn s).pin = s.pin := rfl
@[simp] theorem takeTurn_hz : (takeTurn s).hz = s.hz := rfl
@[simp] theorem takeTurn_duty : (takeTurn s).duty = s.duty := rfl
@[simp] theorem takeTurn_speedArg : (takeTurn s).speedArg = s.speedArg := rfl
@[simp] theorem takeTurn_fault : (takeTurn s).fault = s.fault := rfl
@[simp] theorem takeTurn_hist : (takeTurn s).hist = s.hist := rfl
@[simp] theorem takeTurn_agenda : (takeTurn s).agenda = s.agenda.tail := rfl
@[simp] theorem takeTurn_srIn : (takeTurn s).srIn = s.srIn := rfl
@[simp] theorem takeTurn_drIn : (takeTurn s).drIn = s.drIn := rfl
@[simp] theorem takeTurn_draws : (takeTurn s).draws = s.draws + (if s.agenda.isEmpty then 1 else 0) := rfl
@[simp] theorem takeTurn_returned : (takeTurn s).returned = s.returned := rfl

end Sys2Proof.Machine
end

