-- ==== Sys2Proof/Laws/Ops.lean ====
section
/-! SUPPORT. What each shared operation can do, said once: the guard `live`, the polls, and the steps of the agents. -/

namespace Sys2Proof.Machine

open Sys2Proof

/-- With no fault, `live` is the action itself. -/
theorem live_safe {s : State} (h : s.fault = []) (act : Host.Outcome State Fault Refusal) : live s act = act := by
  simp [live, h]

/-- A machine that has faulted gives no next state (R205). -/
theorem stoppedBy_ne_next (r : Reason) (t : State) : stoppedBy r ≠ .next t := by
  cases r <;> simp [stoppedBy]

/-- `live` answers a next state only without a fault, and then it is the action's. -/
theorem live_next {s t : State} {act : Host.Outcome State Fault Refusal} (h : live s act = .next t) :
    s.fault = [] ∧ act = .next t := by
  cases hf : s.fault with
  | nil => exact ⟨rfl, by simpa [live, hf] using h⟩
  | cons r l => exact absurd (by simpa [live, hf] using h) (stoppedBy_ne_next r t)

/-- The three ways a poll settles after its error test (R104). -/
theorem settle_cases (met : Bool) (advance : State → State) (s : State) :
    (met = true ∧ settle met advance s = advance s) ∨
      (met = false ∧ timedOut s = true ∧ settle met advance s = finish .timeout s) ∨
      (met = false ∧ timedOut s = false ∧ settle met advance s = s) := by
  cases met <;> cases h : timedOut s <;> simp [settle, h]

/-- A tick count is below 2^32 (R7, R37). -/
theorem tick_lt (t : Tick) : t.toNat < 2 ^ 32 := t.isLt

/-- The comparator, in naturals: the difference mod 2^32 is positive and below 2^31 (R188). -/
theorem timedOut_iff (s : State) :
    timedOut s = true ↔ 0 < (s.now - s.deadline).toNat ∧ (s.now - s.deadline).toNat < 2 ^ 31 := by
  have h := tick_lt (s.now - s.deadline)
  simp only [timedOut, decide_eq_true_eq, BitVec.toInt, Config.tickW]
  split <;> omega

/-- A status read changes neither side of the comparator. -/
@[simp] theorem timedOut_sampleSR (s : State) : timedOut (sampleSR s) = timedOut s := rfl

/-- The four ways an error-testing poll ends (R104, R211). -/
theorem pollOrFail_cases (code : ResCode) (met : StatusWord → Bool) (advance : State → State) (s : State) :
    (pollError (nextSR s) s = true ∧ pollOrFail code met advance s = finish code (sampleSR s)) ∨
      (pollError (nextSR s) s = false ∧ met (nextSR s) = true ∧
        pollOrFail code met advance s = advance (sampleSR s)) ∨
      (pollError (nextSR s) s = false ∧ met (nextSR s) = false ∧ timedOut s = true ∧
        pollOrFail code met advance s = finish .timeout (sampleSR s)) ∨
      (pollError (nextSR s) s = false ∧ met (nextSR s) = false ∧ timedOut s = false ∧
        pollOrFail code met advance s = sampleSR s) := by
  cases he : pollError (nextSR s) s <;> cases hm : met (nextSR s) <;> cases ht : timedOut s <;>
    simp [pollOrFail, settle, he, hm, ht]

/-- The three ways a poll without an error test ends (R104). -/
theorem poll_cases (met : StatusWord → Bool) (advance : State → State) (s : State) :
    (met (nextSR s) = true ∧ poll met advance s = advance (sampleSR s)) ∨
      (met (nextSR s) = false ∧ timedOut s = true ∧ poll met advance s = finish .timeout (sampleSR s)) ∨
      (met (nextSR s) = false ∧ timedOut s = false ∧ poll met advance s = sampleSR s) :=
  settle_cases (met (nextSR s)) advance (sampleSR s)

/-- The offsets of the write buffer (R43). -/
theorem accessReg_wbuf {i : Nat} (hi : i < 124) : accessReg (0x100 + 4 * i) 4 = some (.wbuf i) := by
  have h4 : (0x100 + 4 * i) % 4 = 0 := by omega
  have hd : (0x100 + 4 * i - 0x100) / 4 = i := by omega
  have hr : 0x100 ≤ 0x100 + 4 * i ∧ 0x100 + 4 * i < 0x100 + 4 * Config.maxWrite := by
    simp only [Config.maxWrite]
    omega
  simp only [accessReg, if_true, regAt, h4, ne_eq, not_true, if_false, hd, if_pos hr]
  repeat rw [if_neg (by omega)]

/-- The offsets of the read buffer (R43). -/
theorem accessReg_rbuf {i : Nat} (hi : i < 128) : accessReg (0x300 + 4 * i) 4 = some (.rbuf i) := by
  have h4 : (0x300 + 4 * i) % 4 = 0 := by omega
  have hd : (0x300 + 4 * i - 0x300) / 4 = i := by omega
  have hw : ¬(0x100 ≤ 0x300 + 4 * i ∧ 0x300 + 4 * i < 0x100 + 4 * Config.maxWrite) := by
    simp only [Config.maxWrite]
    omega
  have hr : 0x300 ≤ 0x300 + 4 * i ∧ 0x300 + 4 * i < 0x300 + 4 * Config.maxRead := by
    simp only [Config.maxRead]
    omega
  simp only [accessReg, if_true, regAt, h4, ne_eq, not_true, if_false, hd, if_neg hw, if_pos hr]
  repeat rw [if_neg (by omega)]

/-- What a HOST access can do when it answers a next state: a fault is raised and nothing else changes, a read's value
goes to HOST, a register takes the value written, the write is ignored, or the command word runs (R60–R65, R80). -/
theorem hostStep_cases {access : HostAccess} {s t : State} (h : hostStep access s = .next t) :
    s.fault = [] ∧
      ((∃ r, t = raise r s) ∨ (∃ v, t = { s with returned := s.returned ++ [v] }) ∨
        (∃ v, t = { s with speedArg := v }) ∨
        (∃ i b, isBusy s = false ∧ i < Config.maxWrite ∧ t = { s with wbuf := Memory.write s.wbuf i b }) ∨
        t = s ∨ (∃ v i, decode (.cmd v) = .ok i ∧ exec i s = .next t)) := by
  obtain ⟨hf, h⟩ := live_next h
  refine ⟨hf, ?_⟩
  cases access with
  | read off width =>
    simp only at h
    split at h
    · exact .inl ⟨_, by simpa using h.symm⟩
    · split at h
      · exact .inr (.inl ⟨_, by simpa using h.symm⟩)
      · exact .inl ⟨_, by simpa using h.symm⟩
  | write off width v =>
    simp only at h
    split at h
    · exact .inl ⟨_, by simpa using h.symm⟩
    · next r hr =>
      cases r with
      | cmd =>
        simp only [hostWrite, issue] at h
        split at h
        · next i hi => exact .inr (.inr (.inr (.inr (.inr ⟨v, i, hi, h⟩))))
        · exact .inl ⟨_, by simpa using h.symm⟩
      | speedArg => exact .inr (.inr (.inl ⟨v, by simpa [hostWrite] using h.symm⟩))
      | wbuf i =>
        have hi : i < Config.maxWrite := by
          simp only [accessReg, regAt] at hr
          repeat' split at hr
          all_goals simp_all [Config.maxWrite]
          omega
        simp only [hostWrite, wbufWrite] at h
        split at h
        · exact .inl ⟨_, by simpa using h.symm⟩
        · next hb =>
          exact .inr (.inr (.inr (.inl ⟨i, v.truncate 8, by simpa using hb, hi, by simpa using h.symm⟩)))
      | resp => exact .inr (.inr (.inr (.inr (.inl (by simpa [hostWrite] using h.symm)))))
      | status => exact .inr (.inr (.inr (.inr (.inl (by simpa [hostWrite] using h.symm)))))
      | result => exact .inr (.inr (.inr (.inr (.inl (by simpa [hostWrite] using h.symm)))))
      | config => exact .inr (.inr (.inr (.inr (.inl (by simpa [hostWrite] using h.symm)))))
      | speed => exact .inr (.inr (.inr (.inr (.inl (by simpa [hostWrite] using h.symm)))))
      | rbuf i => exact .inr (.inr (.inr (.inr (.inl (by simpa [hostWrite] using h.symm)))))

/-- What an ENGINE turn can do when it answers a next state (R88). -/
theorem engineStep_cases {s t : State} (h : engineStep s = .next t) :
    s.fault = [] ∧
      ((∃ i, decode (.seq s.seq) = .ok i ∧ exec i s = .next t) ∨
        (∃ n, decode (.seq s.seq) = .rejected n) ∧ t = raise .badSeq s) := by
  obtain ⟨hf, h⟩ := live_next h
  refine ⟨hf, ?_⟩
  split at h
  · next i hi => exact .inl ⟨i, hi, h⟩
  · next n hn => exact .inr ⟨⟨n, hn⟩, by simpa using h.symm⟩

/-- What a TICK turn can do (R185). -/
theorem tickStep_cases {s t : State} (h : tickStep s = .next t) :
    s.fault = [] ∧ t = { s with now := s.now + 1 } := by
  obtain ⟨hf, h⟩ := live_next h
  exact ⟨hf, by simpa using h.symm⟩

/-- What a bus-error event can do (R171, R172). -/
theorem errorStep_cases {bits : LatchWord} {s t : State} (h : errorStep bits s = .next t) :
    s.fault = [] ∧ ((s.crErrie = true ∧ t = captureError bits s) ∨ (s.crErrie = false ∧ t = s)) := by
  obtain ⟨hf, h⟩ := live_next h
  refine ⟨hf, ?_⟩
  cases hc : s.crErrie <;> simp_all

end Sys2Proof.Machine
end

