-- ==== Sys2Proof/Laws/Exec.lean ====
section
/-! SUPPORT. What each instruction's next state is, and what one step of the block can do: one lemma each, which later
proofs cite. -/

namespace Sys2Proof.Machine

open Sys2Proof

theorem execExecute_next {a : Addr} {wl rl : BitVec 8} {s t : State} (h : execExecute a wl rl s = .next t) :
    s.fault = [] ∧ t = if isBusy s then { s with resp := .busy } else acceptExecute a wl rl s := by
  obtain ⟨hf, h⟩ := live_next h
  exact ⟨hf, by simpa using h.symm⟩

theorem execSelectPins_next {p : Pin} {s t : State} (h : execSelectPins p s = .next t) :
    s.fault = [] ∧
      t = if isBusy s then raise .configWhileActive s else { reinit { s with pin := p } with resp := .ok } := by
  obtain ⟨hf, h⟩ := live_next h
  exact ⟨hf, by simpa using h.symm⟩

theorem execSetSpeed_next {s t : State} (h : execSetSpeed s = .next t) :
    s.fault = [] ∧
      t = if isBusy s then raise .configWhileActive s
        else if Config.maxHz < s.speedArg.toNat then { s with resp := .configError }
        else { reinit { s with hz := s.speedArg } with resp := .ok } := by
  obtain ⟨hf, h⟩ := live_next h
  exact ⟨hf, by simpa using h.symm⟩

theorem execIdle_next {s t : State} (h : execIdle s = .next t) : s.fault = [] ∧ t = s := by
  obtain ⟨hf, h⟩ := live_next h
  exact ⟨hf, by simpa using h.symm⟩

theorem execWaitFree_next {s t : State} (h : execWaitFree s = .next t) :
    s.fault = [] ∧ t = poll (fun sr => !srBusy sr) (goto Seq.doStart) s := by
  obtain ⟨hf, h⟩ := live_next h
  exact ⟨hf, by simpa using h.symm⟩

theorem execDoStart_next {s t : State} (h : execDoStart s = .next t) :
    s.fault = [] ∧ t = goto Seq.waitSb (emit .start s) := by
  obtain ⟨hf, h⟩ := live_next h
  exact ⟨hf, by simpa using h.symm⟩

theorem execWaitSb_next {s t : State} (h : execWaitSb s = .next t) :
    s.fault = [] ∧ t = poll srSb (goto Seq.doAddr) s := by
  obtain ⟨hf, h⟩ := live_next h
  exact ⟨hf, by simpa using h.symm⟩

theorem execDoAddr_next {s t : State} (h : execDoAddr s = .next t) :
    s.fault = [] ∧ t = goto Seq.waitAddr (emit (.tx .addr (addressByte s.reqAddr s.ph)) s) := by
  obtain ⟨hf, h⟩ := live_next h
  exact ⟨hf, by simpa using h.symm⟩

theorem execWaitAddr_next {s t : State} (h : execWaitAddr s = .next t) :
    s.fault = [] ∧ t = pollOrFail .addressNack srAddr addressAcknowledged s := by
  obtain ⟨hf, h⟩ := live_next h
  exact ⟨hf, by simpa using h.symm⟩

theorem execDoTx_next {s t : State} (h : execDoTx s = .next t) :
    s.fault = [] ∧
      ((Memory.cell Config.maxWrite s.wbuf s.idx.toNat = none ∧ t = raise .wbufUnwritten s) ∨
        ∃ b, Memory.cell Config.maxWrite s.wbuf s.idx.toNat = some b ∧
          t = goto Seq.waitBtf (emit (.tx .data b) s)) := by
  obtain ⟨hf, h⟩ := live_next h
  refine ⟨hf, ?_⟩
  cases hr : Memory.cell Config.maxWrite s.wbuf s.idx.toNat with
  | none => exact .inl ⟨rfl, by simpa [hr] using h.symm⟩
  | some b => exact .inr ⟨b, rfl, by simpa [hr] using h.symm⟩

theorem execWaitBtf_next {s t : State} (h : execWaitBtf s = .next t) :
    s.fault = [] ∧ t = pollOrFail .dataNack srBtf byteTransferred s := by
  obtain ⟨hf, h⟩ := live_next h
  exact ⟨hf, by simpa using h.symm⟩

theorem execDoAckSetup_next {s t : State} (h : execDoAckSetup s = .next t) :
    s.fault = [] ∧ t = { emit (.ack (decide (1 < s.reqRlen.toNat))) s with
      crAck := decide (1 < s.reqRlen.toNat), idx := 0, seq := Seq.waitRxne } := by
  obtain ⟨hf, h⟩ := live_next h
  exact ⟨hf, by simpa using h.symm⟩

theorem execWaitRxne_next {s t : State} (h : execWaitRxne s = .next t) :
    s.fault = [] ∧ t = pollOrFail .dataNack srRxne (goto Seq.doRxRead) s := by
  obtain ⟨hf, h⟩ := live_next h
  exact ⟨hf, by simpa using h.symm⟩

theorem execDoRxRead_next {s t : State} (h : execDoRxRead s = .next t) :
    s.fault = [] ∧ t = byteReceived { sampleDR s with
      rbuf := Memory.store Config.maxRead s.rbuf s.idx.toNat (nextDR s), idx := s.idx + 1 } := by
  obtain ⟨hf, h⟩ := live_next h
  exact ⟨hf, by simpa using h.symm⟩

theorem execDoAckOff_next {s t : State} (h : execDoAckOff s = .next t) :
    s.fault = [] ∧ t = goto Seq.waitRxne { emit (.ack false) s with crAck := false } := by
  obtain ⟨hf, h⟩ := live_next h
  exact ⟨hf, by simpa using h.symm⟩

theorem execDoStop_next {s t : State} (h : execDoStop s = .next t) :
    s.fault = [] ∧ t = goto Seq.doErrOff (emit .stop s) := by
  obtain ⟨hf, h⟩ := live_next h
  exact ⟨hf, by simpa using h.symm⟩

theorem execDoErrOff_next {s t : State} (h : execDoErrOff s = .next t) :
    s.fault = [] ∧ t = { s with
      crErrie := false
      result := s.outcome
      rbuf := if s.outcome = .ok then s.rbuf else []
      outcome := .none
      seq := Seq.idle
      hist := s.hist ++ [.errie false, .done s.outcome] } := by
  obtain ⟨hf, h⟩ := live_next h
  exact ⟨hf, by simpa using h.symm⟩

/-- The decoded micro-state is the one of the code (R21). -/
theorem decodeSeq_ok {c : BitVec 4} {i : Instr} (h : decode (.seq c) = .ok i) : encode i = .seq c := by
  have key : ∀ c : BitVec 4, ∀ j, (decodeSeq c).instr? = some j → encode j = .seq c := by
    intro c j hj
    have all : ∀ c : BitVec 4, ((decodeSeq c).instr?.all fun j => decide (encode j = .seq c)) = true := by decide
    have := all c
    simpa [hj] using this
  exact key c i (by simpa [decode, Decoded.instr?] using congrArg Decoded.instr? h)

/-- A decoded command word is one of the three commands (R88). -/
theorem decodeCmd_ok {v : Word} {i : Instr} (h : decode (.cmd v) = .ok i) :
    (∃ a wl rl, i = .execute a wl rl ∧ wl.toNat ≤ Config.maxWrite ∧ rl.toNat ≤ Config.maxRead) ∨
      (∃ p, i = .selectPins p) ∨ i = .setSpeed := by
  simp only [decode, decodeCmd, decodeExecute, decodeSelectPins, decodeSetSpeed] at h
  repeat' split at h
  any_goals cases h
  · exact .inl ⟨_, _, _, rfl, by omega, by omega⟩
  · exact .inr (.inl ⟨_, rfl⟩)
  · exact .inr (.inr rfl)

/-- The moves of the sequencer, one constructor per way a micro-state can end (R104, R110–R122, R126). -/
inductive Move (s : State) : State → Prop where
  | idle (h : s.seq = 0) : Move s s
  | stay (h : s.seq = 1 ∨ s.seq = 3 ∨ s.seq = 5 ∨ s.seq = 7 ∨ s.seq = 9) (early : timedOut s = false) :
    Move s (sampleSR s)
  | timeout (h : s.seq = 1 ∨ s.seq = 3 ∨ s.seq = 5 ∨ s.seq = 7 ∨ s.seq = 9) (late : timedOut s = true) :
    Move s (finish .timeout (sampleSR s))
  | free (h : s.seq = 1) : Move s (goto Seq.doStart (sampleSR s))
  | start (h : s.seq = 2) : Move s (goto Seq.waitSb (emit .start s))
  | started (h : s.seq = 3) : Move s (goto Seq.doAddr (sampleSR s))
  | address (h : s.seq = 4) : Move s (goto Seq.waitAddr (emit (.tx .addr (addressByte s.reqAddr s.ph)) s))
  | addressNack (h : s.seq = 5) : Move s (finish .addressNack (sampleSR s))
  | probed (h : s.seq = 5) (hp : s.ph = .W) (hw : s.reqWlen.toNat = 0) : Move s (finish .ok (sampleSR s))
  | toWrite (h : s.seq = 5) (hp : s.ph = .W) (hw : 0 < s.reqWlen.toNat) :
    Move s { sampleSR s with idx := 0, seq := Seq.doTx }
  | toRead (h : s.seq = 5) (hp : s.ph = .R) : Move s (goto Seq.doAckSetup (sampleSR s))
  | unwritten (h : s.seq = 6) (hb : Memory.cell Config.maxWrite s.wbuf s.idx.toNat = none) :
    Move s (raise .wbufUnwritten s)
  | transmit (h : s.seq = 6) (b : Byte) (hb : Memory.cell Config.maxWrite s.wbuf s.idx.toNat = some b) :
    Move s (goto Seq.waitBtf (emit (.tx .data b) s))
  | dataNack (h : s.seq = 7 ∨ s.seq = 9) : Move s (finish .dataNack (sampleSR s))
  | nextByte (h : s.seq = 7) (hi : s.idx.toNat + 1 < s.reqWlen.toNat) :
    Move s { sampleSR s with idx := s.idx + 1, seq := Seq.doTx }
  | restart (h : s.seq = 7) (hi : s.reqWlen.toNat ≤ s.idx.toNat + 1) (hr : 0 < s.reqRlen.toNat) :
    Move s { sampleSR s with idx := 0, ph := .R, seq := Seq.doStart }
  | written (h : s.seq = 7) (hi : s.reqWlen.toNat ≤ s.idx.toNat + 1) (hr : s.reqRlen.toNat = 0) :
    Move s (finish .ok (sampleSR s))
  | ackSetup (h : s.seq = 8) : Move s { emit (.ack (decide (1 < s.reqRlen.toNat))) s with
      crAck := decide (1 < s.reqRlen.toNat), idx := 0, seq := Seq.waitRxne }
  | ready (h : s.seq = 9) : Move s (goto Seq.doRxRead (sampleSR s))
  | lastByte (h : s.seq = 10) (hi : (s.idx + 1).toNat = s.reqRlen.toNat) :
    Move s (finish .ok { sampleDR s with
      rbuf := Memory.store Config.maxRead s.rbuf s.idx.toNat (nextDR s), idx := s.idx + 1 })
  | lastButOne (h : s.seq = 10) (hi : (s.idx + 1).toNat + 1 = s.reqRlen.toNat) :
    Move s (goto Seq.doAckOff { sampleDR s with
      rbuf := Memory.store Config.maxRead s.rbuf s.idx.toNat (nextDR s), idx := s.idx + 1 })
  | earlierByte (h : s.seq = 10) (hi : (s.idx + 1).toNat ≠ s.reqRlen.toNat)
    (hj : (s.idx + 1).toNat + 1 ≠ s.reqRlen.toNat) :
    Move s (goto Seq.waitRxne { sampleDR s with
      rbuf := Memory.store Config.maxRead s.rbuf s.idx.toNat (nextDR s), idx := s.idx + 1 })
  | ackOff (h : s.seq = 11) : Move s (goto Seq.waitRxne { emit (.ack false) s with crAck := false })
  | stop (h : s.seq = 12) : Move s (goto Seq.doErrOff (emit .stop s))
  | post (h : s.seq = 13) : Move s { s with
      crErrie := false
      result := s.outcome
      rbuf := if s.outcome = .ok then s.rbuf else []
      outcome := .none
      seq := Seq.idle
      hist := s.hist ++ [.errie false, .done s.outcome] }

/-- A micro-state that runs makes one of the moves. -/
theorem exec_move {i : Instr} {s t : State} (he : encode i = .seq s.seq) (h : exec i s = .next t) : Move s t := by
  cases i with
  | execute => simp [encode] at he
  | selectPins => simp [encode] at he
  | setSpeed => simp [encode] at he
  | idle =>
    obtain ⟨_, rfl⟩ := execIdle_next h
    exact .idle (by simpa [encode] using he.symm)
  | waitFree =>
    have hs : s.seq = 1 := by simpa [encode] using he.symm
    obtain ⟨_, rfl⟩ := execWaitFree_next h
    obtain ⟨_, e⟩ | ⟨_, ht, e⟩ | ⟨_, ht', e⟩ := poll_cases (fun sr => !srBusy sr) (goto Seq.doStart) s
    · rw [e]
      exact .free hs
    · rw [e]
      exact .timeout (.inl hs) ht
    · rw [e]
      exact .stay (.inl hs) ht'
  | doStart =>
    obtain ⟨_, rfl⟩ := execDoStart_next h
    exact .start (by simpa [encode] using he.symm)
  | waitSb =>
    have hs : s.seq = 3 := by simpa [encode] using he.symm
    obtain ⟨_, rfl⟩ := execWaitSb_next h
    obtain ⟨_, e⟩ | ⟨_, ht, e⟩ | ⟨_, ht', e⟩ := poll_cases srSb (goto Seq.doAddr) s
    · rw [e]
      exact .started hs
    · rw [e]
      exact .timeout (.inr (.inl hs)) ht
    · rw [e]
      exact .stay (.inr (.inl hs)) ht'
  | doAddr =>
    obtain ⟨_, rfl⟩ := execDoAddr_next h
    exact .address (by simpa [encode] using he.symm)
  | waitAddr =>
    have hs : s.seq = 5 := by simpa [encode] using he.symm
    obtain ⟨_, rfl⟩ := execWaitAddr_next h
    obtain ⟨_, e⟩ | ⟨_, _, e⟩ | ⟨_, _, ht, e⟩ | ⟨_, _, ht', e⟩ :=
      pollOrFail_cases .addressNack srAddr addressAcknowledged s
    · rw [e]
      exact .addressNack hs
    · rw [e]
      unfold addressAcknowledged
      split
      · next hp =>
        split
        · next hw => exact .toWrite hs hp hw
        · next hw => exact .probed hs hp (Nat.eq_zero_of_not_pos hw)
      · next hp => exact .toRead hs hp
    · rw [e]
      exact .timeout (.inr (.inr (.inl hs))) ht
    · rw [e]
      exact .stay (.inr (.inr (.inl hs))) ht'
  | doTx =>
    have hs : s.seq = 6 := by simpa [encode] using he.symm
    obtain ⟨_, ⟨hb, rfl⟩ | ⟨b, hb, rfl⟩⟩ := execDoTx_next h
    · exact .unwritten hs hb
    · exact .transmit hs b hb
  | waitBtf =>
    have hs : s.seq = 7 := by simpa [encode] using he.symm
    obtain ⟨_, rfl⟩ := execWaitBtf_next h
    obtain ⟨_, e⟩ | ⟨_, _, e⟩ | ⟨_, _, ht, e⟩ | ⟨_, _, ht', e⟩ :=
      pollOrFail_cases .dataNack srBtf byteTransferred s
    · rw [e]
      exact .dataNack (.inl hs)
    · rw [e]
      unfold byteTransferred
      split
      · next hi => exact .nextByte hs hi
      · next hi =>
        split
        · next hr => exact .restart hs (Nat.le_of_not_lt hi) hr
        · next hr => exact .written hs (Nat.le_of_not_lt hi) (Nat.eq_zero_of_not_pos hr)
    · rw [e]
      exact .timeout (.inr (.inr (.inr (.inl hs)))) ht
    · rw [e]
      exact .stay (.inr (.inr (.inr (.inl hs)))) ht'
  | doAckSetup =>
    obtain ⟨_, rfl⟩ := execDoAckSetup_next h
    exact .ackSetup (by simpa [encode] using he.symm)
  | waitRxne =>
    have hs : s.seq = 9 := by simpa [encode] using he.symm
    obtain ⟨_, rfl⟩ := execWaitRxne_next h
    obtain ⟨_, e⟩ | ⟨_, _, e⟩ | ⟨_, _, ht, e⟩ | ⟨_, _, ht', e⟩ :=
      pollOrFail_cases .dataNack srRxne (goto Seq.doRxRead) s
    · rw [e]
      exact .dataNack (.inr hs)
    · rw [e]
      exact .ready hs
    · rw [e]
      exact .timeout (.inr (.inr (.inr (.inr hs)))) ht
    · rw [e]
      exact .stay (.inr (.inr (.inr (.inr hs)))) ht'
  | doRxRead =>
    have hs : s.seq = 10 := by simpa [encode] using he.symm
    obtain ⟨_, rfl⟩ := execDoRxRead_next h
    unfold byteReceived
    split
    · next hi => exact .lastByte hs hi
    · next hi =>
      split
      · next hj => exact .lastButOne hs hj
      · next hj => exact .earlierByte hs hi hj
  | doAckOff =>
    obtain ⟨_, rfl⟩ := execDoAckOff_next h
    exact .ackOff (by simpa [encode] using he.symm)
  | doStop =>
    obtain ⟨_, rfl⟩ := execDoStop_next h
    exact .stop (by simpa [encode] using he.symm)
  | doErrOff =>
    obtain ⟨_, rfl⟩ := execDoErrOff_next h
    exact .post (by simpa [encode] using he.symm)

/-- What an agent's step can do when it answers a next state (R6): a fault is raised and nothing else changes, HOST, the
timer or an error event changes its own fields, or an instruction runs, which for the ENGINE is the one `SEQ` holds. -/
theorem agentStep_cases {turn : Turn} {s t : State} (h : agentStep turn s = .next t) :
    s.fault = [] ∧
      ((∃ r, t = raise r s) ∨
        (∃ v, t = { s with returned := s.returned ++ [v] }) ∨
        (∃ v, t = { s with speedArg := v }) ∨
        (∃ i b, isBusy s = false ∧ i < Config.maxWrite ∧ t = { s with wbuf := Memory.write s.wbuf i b }) ∨
        t = s ∨
        (turn = .tick ∧ t = { s with now := s.now + 1 }) ∨
        (∃ bits, turn = .busError bits ∧ s.crErrie = true ∧ t = captureError bits s) ∨
        (∃ v i, decode (.cmd v) = .ok i ∧ exec i s = .next t) ∨
        (∃ i, turn = .engine ∧ decode (.seq s.seq) = .ok i ∧ exec i s = .next t)) := by
  cases turn with
  | host access =>
    obtain ⟨hf, h | h | h | h | h | h⟩ := hostStep_cases h
    · exact ⟨hf, .inl h⟩
    · exact ⟨hf, .inr (.inl h)⟩
    · exact ⟨hf, .inr (.inr (.inl h))⟩
    · exact ⟨hf, .inr (.inr (.inr (.inl h)))⟩
    · exact ⟨hf, .inr (.inr (.inr (.inr (.inl h))))⟩
    · exact ⟨hf, .inr (.inr (.inr (.inr (.inr (.inr (.inr (.inl h)))))))⟩
  | engine =>
    obtain ⟨hf, ⟨i, hi, he⟩ | ⟨_, h⟩⟩ := engineStep_cases h
    · exact ⟨hf, .inr (.inr (.inr (.inr (.inr (.inr (.inr (.inr ⟨i, rfl, hi, he⟩)))))))⟩
    · exact ⟨hf, .inl ⟨_, h⟩⟩
  | tick =>
    obtain ⟨hf, h⟩ := tickStep_cases h
    exact ⟨hf, .inr (.inr (.inr (.inr (.inr (.inl ⟨rfl, h⟩)))))⟩
  | busError bits =>
    obtain ⟨hf, ⟨hc, h⟩ | ⟨_, h⟩⟩ := errorStep_cases h
    · exact ⟨hf, .inr (.inr (.inr (.inr (.inr (.inr (.inl ⟨bits, rfl, hc, h⟩))))))⟩
    · exact ⟨hf, .inr (.inr (.inr (.inr (.inl h))))⟩

/-- A step of the block is the step of the agent whose turn it is, the turn taken off: `agentStep_cases` says what it can
do. -/
theorem agentStep_of_step {s t : State} (h : step s = .next t) : agentStep (nextTurn s) (takeTurn s) = .next t := h

/-- A property of states that every one of these effects keeps is kept by every step: the case analysis of a step, done
once. -/
structure Kept (P : State → Prop) : Prop where
  env : ∀ s agenda srIn drIn draws, P s → P (s.withEnv agenda srIn drIn draws)
  raised : ∀ r s, P s → P (raise r s)
  read : ∀ v s, P s → P { s with returned := s.returned ++ [v] }
  speedArg : ∀ v s, P s → P { s with speedArg := v }
  bufferWrite : ∀ i b s, isBusy s = false → i < Config.maxWrite → P s →
    P { s with wbuf := Memory.write s.wbuf i b }
  tick : ∀ s, P s → P { s with now := s.now + 1 }
  capture : ∀ bits s, s.crErrie = true → P s → P (captureError bits s)
  rejected : ∀ s, isBusy s = true → P s → P { s with resp := .busy }
  accepted : ∀ a wl rl s, isBusy s = false → wl.toNat ≤ Config.maxWrite → rl.toNat ≤ Config.maxRead → P s →
    P (acceptExecute a wl rl s)
  pins : ∀ p s, isBusy s = false → P s → P { reinit { s with pin := p } with resp := .ok }
  tooFast : ∀ s, isBusy s = false → P s → P { s with resp := .configError }
  speed : ∀ s, isBusy s = false → s.speedArg.toNat ≤ Config.maxHz → P s →
    P { reinit { s with hz := s.speedArg } with resp := .ok }
  move : ∀ s t, Move s t → P s → P t

/-- Every agent's step keeps a property that is `Kept`. -/
theorem Kept.agentStep {P : State → Prop} (k : Kept P) {turn : Turn} {s t : State} (hP : P s)
    (h : agentStep turn s = .next t) : P t := by
  obtain ⟨hf, h⟩ := agentStep_cases h
  rcases h with ⟨r, rfl⟩ | ⟨v, rfl⟩ | ⟨v, rfl⟩ | ⟨i, b, hb, hi, rfl⟩ | rfl | ⟨_, rfl⟩ | ⟨bits, _, hc, rfl⟩ |
    ⟨v, i, hi, he⟩ | ⟨i, _, hi, he⟩
  · exact k.raised r _ hP
  · exact k.read v _ hP
  · exact k.speedArg v _ hP
  · exact k.bufferWrite i b _ hb hi hP
  · exact hP
  · exact k.tick _ hP
  · exact k.capture bits _ hc hP
  · rcases decodeCmd_ok hi with ⟨a, wl, rl, rfl, hw, hr⟩ | ⟨p, rfl⟩ | rfl
    · obtain ⟨_, rfl⟩ := execExecute_next he
      split
      · next hb => exact k.rejected _ hb hP
      · next hb => exact k.accepted a wl rl _ (by simpa using hb) hw hr hP
    · obtain ⟨_, rfl⟩ := execSelectPins_next he
      split
      · exact k.raised _ _ hP
      · next hb => exact k.pins p _ (by simpa using hb) hP
    · obtain ⟨_, rfl⟩ := execSetSpeed_next he
      split
      · exact k.raised _ _ hP
      · next hb =>
        split
        · exact k.tooFast _ (by simpa using hb) hP
        · next hz => exact k.speed _ (by simpa using hb) (by omega) hP
  · exact k.move _ t (exec_move (decodeSeq_ok hi) he) hP

/-- Every step keeps a property that is `Kept`. -/
theorem Kept.step {P : State → Prop} (k : Kept P) {s t : State} (hP : P s) (h : step s = .next t) : P t :=
  k.agentStep (k.env s s.agenda.tail s.srIn s.drIn (s.draws + (if s.agenda.isEmpty then 1 else 0)) hP)
    (agentStep_of_step h)

/-- Every move of a run keeps a property that is `Kept`. -/
theorem Kept.moves {P : State → Prop} (k : Kept P) {turn : Turn} {s t : State} (hP : P s) (h : Moves turn s t) : P t := by
  obtain ⟨agenda, srIn, drIn, draws, h⟩ := h
  exact k.agentStep (k.env s agenda srIn drIn draws hP) h

/-- So it holds of every state reached from one where it holds. -/
theorem Kept.reaches {P : State → Prop} (k : Kept P) {p : HostProgram} {s t : State} {made : Nat} (hP : P s)
    (h : Reaches p s made t) : P t := by
  induction h with
  | start => exact hP
  | move _ _ last ih => exact k.moves ih last

/-- And of every state of a run. -/
theorem Kept.run {P : State → Prop} (k : Kept P) (r : Run) (hP : P (r.state 0)) (n : Nat) : P (r.state n) := by
  induction n with
  | zero => exact hP
  | succ n ih => exact k.moves ih (r.moves n)

end Sys2Proof.Machine
end

