-- ==== Sys2Proof/Laws/Runs.lean ====
section
/-! SUPPORT. The laws of runs: a step of the block is a move of one, a run reaches no fault, and once a run is over
nothing that is observed changes. -/

namespace Sys2Proof.Machine

open Sys2Proof

/-- A step of the block is a move of the agent whose turn it is (R6). -/
theorem Moves.of_step {s t : State} (h : step s = .next t) : Moves (nextTurn s) s t :=
  ⟨s.agenda.tail, s.srIn, s.drIn, s.draws + (if s.agenda.isEmpty then 1 else 0), h⟩

/-- An agent's step from the state as it stands is a move. -/
theorem Moves.of_agentStep {turn : Turn} {s t : State} (h : agentStep turn s = .next t) : Moves turn s t :=
  ⟨s.agenda, s.srIn, s.drIn, s.draws, h⟩

/-- No agent moves in a faulted state (R205). -/
theorem Moves.safe {turn : Turn} {s t : State} (h : Moves turn s t) : s.Safe := by
  obtain ⟨agenda, srIn, drIn, draws, h⟩ := h
  exact (agentStep_cases h).1

/-- A run, which goes on forever, reaches no fault. -/
theorem Run.safe (r : Run) (n : Nat) : (r.state n).Safe := (r.moves n).safe

/-- The TICK steps counted only grow. -/
theorem Run.ticks_mono (r : Run) {i j : Nat} (h : i ≤ j) : r.ticks i ≤ r.ticks j := by
  induction h with
  | refl => exact Nat.le_refl _
  | step _ ih => exact Nat.le_trans ih (Nat.le_add_right _ _)

/-- While the block is idle with its error interrupt off, a move that is not HOST's leaves it idle, raises no fault and
changes nothing that is observed (R243) or returned to HOST. -/
theorem Moves.idle {turn : Turn} {s t : State} (h : Moves turn s t) (hh : Turn.isHost turn = false)
    (hs : isBusy s = false) (hc : s.crErrie = false) :
    isBusy t = false ∧ t.crErrie = false ∧ t.fault = s.fault ∧ t.returned = s.returned ∧
      observe t = observe s := by
  obtain ⟨agenda, srIn, drIn, draws, h⟩ := h
  have h0 : s.seq = 0 := by simpa [isBusy] using hs
  cases turn with
  | host access => simp [Turn.isHost] at hh
  | engine =>
    have hd : decode (.seq (s.withEnv agenda srIn drIn draws).seq) = .ok .idle := by
      show decode (.seq s.seq) = _
      rw [h0]
      decide
    obtain ⟨_, ⟨i, hi, he⟩ | ⟨⟨n, hn⟩, _⟩⟩ := engineStep_cases h
    · rw [hd] at hi
      cases hi
      obtain ⟨_, rfl⟩ := execIdle_next he
      exact ⟨hs, hc, rfl, rfl, rfl⟩
    · rw [hd] at hn
      cases hn
  | tick =>
    obtain ⟨_, rfl⟩ := tickStep_cases h
    exact ⟨hs, hc, rfl, rfl, rfl⟩
  | busError bits =>
    obtain ⟨_, ⟨hc', _⟩ | ⟨_, rfl⟩⟩ := errorStep_cases h
    · exact absurd hc' (by simpa [State.withEnv] using hc)
    · exact ⟨hs, hc, rfl, rfl, rfl⟩

/-- While a transaction runs, a move that is not the ENGINE's changes none of what the sequencer goes by, and `NOW` is
TICK's alone (R102, R150, R171, R185). -/
theorem Moves.busy {turn : Turn} {s t : State} (h : Moves turn s t) (hne : turn ≠ .engine) (hb : isBusy s = true) :
    t.seq = s.seq ∧ t.ph = s.ph ∧ t.idx = s.idx ∧ t.reqWlen = s.reqWlen ∧ t.reqRlen = s.reqRlen ∧
      t.deadline = s.deadline ∧ t.now = s.now + (if turn = .tick then 1 else 0) := by
  obtain ⟨agenda, srIn, drIn, draws, h⟩ := h
  cases turn with
  | engine => exact absurd rfl hne
  | tick =>
    obtain ⟨_, rfl⟩ := tickStep_cases h
    exact ⟨rfl, rfl, rfl, rfl, rfl, rfl, by simp [State.withEnv]⟩
  | busError bits =>
    obtain ⟨_, ⟨_, rfl⟩ | ⟨_, rfl⟩⟩ := errorStep_cases h
    · exact ⟨rfl, rfl, rfl, rfl, rfl, rfl, by simp [State.withEnv]⟩
    · exact ⟨rfl, rfl, rfl, rfl, rfl, rfl, by simp [State.withEnv]⟩
  | host access =>
    have hb' : isBusy (s.withEnv agenda srIn drIn draws) = true := hb
    obtain ⟨_, h⟩ := hostStep_cases h
    rcases h with ⟨r, rfl⟩ | ⟨v, rfl⟩ | ⟨v, rfl⟩ | ⟨i, b, hi, _, _⟩ | rfl | ⟨v, i, hi, he⟩
    · exact ⟨rfl, rfl, rfl, rfl, rfl, rfl, by simp [State.withEnv]⟩
    · exact ⟨rfl, rfl, rfl, rfl, rfl, rfl, by simp [State.withEnv]⟩
    · exact ⟨rfl, rfl, rfl, rfl, rfl, rfl, by simp [State.withEnv]⟩
    · rw [hb'] at hi
      cases hi
    · exact ⟨rfl, rfl, rfl, rfl, rfl, rfl, by simp [State.withEnv]⟩
    · rcases decodeCmd_ok hi with ⟨a, wl, rl, rfl, _, _⟩ | ⟨p, rfl⟩ | rfl
      · obtain ⟨_, rfl⟩ := execExecute_next he
        rw [if_pos hb']
        exact ⟨rfl, rfl, rfl, rfl, rfl, rfl, by simp [State.withEnv]⟩
      · obtain ⟨_, rfl⟩ := execSelectPins_next he
        rw [if_pos hb']
        exact ⟨rfl, rfl, rfl, rfl, rfl, rfl, by simp [State.withEnv]⟩
      · obtain ⟨_, rfl⟩ := execSetSpeed_next he
        rw [if_pos hb']
        exact ⟨rfl, rfl, rfl, rfl, rfl, rfl, by simp [State.withEnv]⟩

/-- HOST takes no turn while its program has nothing left to issue. -/
theorem Run.Follows.not_host {r : Run} {p : HostProgram} (hf : r.Follows p) {n : Nat} (h : r.HostDone p n) :
    Turn.isHost (r.turn n) = false := by
  cases ht : r.turn n with
  | host access =>
    have := hf n access ht
    rw [show p (r.made n) (r.state n).returned = none from h] at this
    cases this
  | engine => rfl
  | tick => rfl
  | busError => rfl

/-- Once a run is over it stays over, and what is observed stays as it is. -/
theorem Run.Over.stays {r : Run} {p : HostProgram} (hf : r.Follows p) {n : Nat} (h : r.Over p n)
    (hc : (r.state n).crErrie = false) (k : Nat) :
    r.Over p (n + k) ∧ (r.state (n + k)).crErrie = false ∧ observe (r.state (n + k)) = observe (r.state n) := by
  induction k with
  | zero => exact ⟨h, hc, rfl⟩
  | succ k ih =>
    obtain ⟨ho, hk, he⟩ := ih
    have hh := hf.not_host ho.hostDone
    obtain ⟨hi, hc', _, hr, he'⟩ := (r.moves (n + k)).idle hh ho.idle hk
    refine ⟨⟨r.safe _, hi, ?_⟩, hc', he'.trans he⟩
    show p (r.made (n + k + 1)) (r.state (n + k + 1)).returned = none
    rw [hr, Run.made, Turn.countHost, hh]
    exact ho.hostDone

/-- A program with nothing to issue: whatever is true of what is observed at an idle, safe start holds (R244). -/
theorem Holds.of_idle (considered : Run → Prop) (start : State → Prop) (claim : Observation → Prop)
    (hs : ∀ s, start s → s.Safe ∧ isBusy s = false ∧ s.crErrie = false ∧ claim (observe s)) :
    Holds considered (fun _ _ => none) start claim where
  noFault s made t h hr := by
    suffices hk : t.Safe ∧ isBusy t = false ∧ t.crErrie = false from hk.1
    induction hr with
    | start => exact ⟨(hs s h).1, (hs s h).2.1, (hs s h).2.2.1⟩
    | @move made t u turn _ permitted last ih =>
      obtain ⟨hf, hi, hc⟩ := ih
      have hh : Turn.isHost turn = false := by
        cases turn with
        | host access => cases permitted access rfl
        | engine => rfl
        | tick => rfl
        | busError => rfl
      obtain ⟨hi', hc', hf', _⟩ := last.idle hh hi hc
      exact ⟨hf'.trans hf, hi', hc'⟩
  ends r h _ := ⟨0, r.safe 0, (hs _ h.starts).2.1, rfl⟩
  noHang r h n hh := by
    have := (Run.Over.stays h.follows ⟨r.safe 0, (hs _ h.starts).2.1, rfl⟩ (hs _ h.starts).2.2.1 n).1.idle
    simp only [Nat.zero_add, isBusy, decide_eq_false_iff_not, ne_eq, Decidable.not_not] at this
    rw [Run.HangsFrom, isPoll, this] at hh
    exact absurd hh.1 (by decide)
  observed r h n he := by
    obtain ⟨_, _, ho⟩ :=
      Run.Over.stays h.follows ⟨r.safe 0, (hs _ h.starts).2.1, rfl⟩ (hs _ h.starts).2.2.1 n
    rw [Nat.zero_add] at ho
    rw [ho]
    exact (hs _ h.starts).2.2.2

end Sys2Proof.Machine
end

