-- ==== Sys2Proof/Laws/Assembly.lean ====
section
/-! SUPPORT. The laws of HOST's lines: what each step of a line leaves to do, and that the response `CALL` checks is one
of the two it must be. -/

namespace Sys2Proof.Machine

open Sys2Proof

@[simp] theorem leftAfter_zero (ops : List HostOp) (seen : List Word) : leftAfter ops 0 seen = ops := rfl

@[simp] theorem leftAfter_nil (made : Nat) (seen : List Word) : leftAfter [] made seen = [] := by
  cases made <;> rfl

/-- A write returns nothing, and HOST goes on. -/
@[simp] theorem leftAfter_write (off width : Nat) (v : Word) (rest : List HostOp) (made : Nat) (seen : List Word) :
    leftAfter (.access (.write off width v) :: rest) (made + 1) seen = leftAfter rest made seen := by
  cases seen <;> rfl

/-- `WAIT` reads `STATUS` again after `BUSY = 1`. -/
theorem leftAfter_busy (rest : List HostOp) (made : Nat) (v : Word) (seen : List Word) (hv : v.getLsbD 0 = true) :
    leftAfter (.untilIdle :: rest) (made + 1) (v :: seen) = leftAfter (.untilIdle :: rest) made seen := by
  simp only [leftAfter, nextAccess, afterRead, hv, if_true]

/-- `WAIT` goes on after `BUSY = 0`. -/
theorem leftAfter_idle (rest : List HostOp) (made : Nat) (v : Word) (seen : List Word) (hv : v.getLsbD 0 = false) :
    leftAfter (.untilIdle :: rest) (made + 1) (v :: seen) = leftAfter rest made seen := by
  simp only [leftAfter, nextAccess, afterRead, hv, Bool.false_eq_true, if_false]

/-- While every `STATUS` that HOST has read had `BUSY = 1`, `WAIT` reads it once more. -/
theorem wait_repeats (rest : List HostOp) (seen : List Word) (hv : ∀ v ∈ seen, v.getLsbD 0 = true) :
    nextAccess (leftAfter (.untilIdle :: rest) seen.length seen) = some (.read 0x00C 4) := by
  induction seen with
  | nil => rfl
  | cons v seen ih =>
    rw [List.length_cons, leftAfter_busy _ _ _ _ (hv v (by simp))]
    exact ih fun w hw => hv w (by simp [hw])

/-- A HOST read of `STATUS` returns `BUSY` in the bit that `WAIT` goes by (R43). -/
theorem status_busy (s : State) :
    hostStep (.read 0x00C 4) s = live s (.next { s with
      returned := s.returned ++ [0#30 ++ BitVec.ofBool (isDone s) ++ BitVec.ofBool (isBusy s)] }) ∧
    (0#30 ++ BitVec.ofBool (isDone s) ++ BitVec.ofBool (isBusy s) : Word).getLsbD 0 = isBusy s := by
  refine ⟨rfl, ?_⟩
  cases isDone s <;> cases isBusy s <;> decide

/-- The response that `CALL` reads back after its EXECUTE is `ACCEPTED` or `BUSY` (R101, R102, R213). -/
theorem execute_resp {a : Addr} {wl rl : BitVec 8} {s t : State} (h : exec (.execute a wl rl) s = .next t) :
    t.resp = .accepted ∨ t.resp = .busy := by
  obtain ⟨_, rfl⟩ := execExecute_next h
  split
  · exact .inr rfl
  · exact .inl rfl

/-- So `CALL` goes on to its `WAIT`. -/
theorem afterRead_resp {c : ResCode} (hc : c = .accepted ∨ c = .busy) (rest : List HostOp) :
    afterRead ((codeBits c).zeroExtend 32) (.checkResp :: rest) = rest := by
  rcases hc with rfl | rfl <;> rfl

end Sys2Proof.Machine
end

