-- ==== Sys2Proof/Laws/Decode.lean ====
section
/-! SUPPORT. The small laws of the encoding: a field as a number, a pin pair as a bit, and well-formedness spelt out. -/

namespace Sys2Proof

/-- A field is a quotient and a remainder of the word. -/
theorem field_toNat (v : Word) (lo n : Nat) : (field v lo n).toNat = v.toNat / 2 ^ lo % 2 ^ n := by
  simp [field, Nat.shiftRight_eq_div_pow]

/-- An address is at most 127 (R7, R82). -/
theorem addr_lt (a : Addr) : a.toNat < 128 := a.isLt

@[simp] theorem pinOfBit_bitOfPin (p : Pin) : pinOfBit (bitOfPin p) = p := by cases p <;> rfl

@[simp] theorem bitOfPin_pinOfBit (b : BitVec 1) : bitOfPin (pinOfBit b) = b := by
  revert b
  decide

/-- The `PAIRS` numbers are each some pin pair's (R7, R38). -/
theorem number_surjective (n : Fin Config.pairs) : ∃ p : Pin, p.number = n := by
  have all : ∀ n : Fin Config.pairs, n = Pin.pairA.number ∨ n = Pin.pairB.number := by decide
  exact (all n).elim (fun h => ⟨.pairA, h.symm⟩) (fun h => ⟨.pairB, h.symm⟩)

/-- Two pin pairs of one number are the same. -/
theorem number_injective {p q : Pin} (h : p.number = q.number) : p = q := by
  revert p q
  intro p q
  cases p <;> cases q <;> decide

/-- EXECUTE is well formed exactly within its length bounds (R82). -/
theorem wellFormed_execute (addr : Addr) (wlen rlen : BitVec 8) :
    Instr.WellFormed (.execute addr wlen rlen) ↔ wlen.toNat ≤ Config.maxWrite ∧ rlen.toNat ≤ Config.maxRead := by
  simp [Instr.WellFormed, Instr.wellFormed]

end Sys2Proof
end

