-- ==== Sys2Proof/Laws/PerInstr.lean ====
section
/-! SUPPORT. One statement per instruction, about the instruction as syntax: the word the encoder writes has the fixed
bits that spec/opcode_table.json gives the instruction's row (its "fixed" entries). -/

namespace Sys2Proof.Laws.TableMatch

open Sys2Proof

/-- A "fixed" entry of a CMD row: bits `hi..lo` hold `value`. -/
structure Fixed where
  hi : Nat
  lo : Nat
  value : Nat

/-- The encoder writes a command word that has the row's fixed bits. -/
def cmdRow (fixed : List Fixed) (i : Instr) : Prop :=
  ∃ w, encode i = .cmd w ∧ ∀ f ∈ fixed, (field w f.lo (f.hi - f.lo + 1)).toNat = f.value

/-- The encoder writes the row's four bits. -/
def seqRow (pattern : BitVec 4) (i : Instr) : Prop := encode i = .seq pattern

/-- The encoder agrees with the table's fixed bits. -/
def Statement (i : Instr) : Prop :=
  match i with
  | .execute _ _ _ => cmdRow [⟨3, 0, 1⟩, ⟨11, 11, 0⟩, ⟨31, 28, 0⟩] i
  | .selectPins _ => cmdRow [⟨3, 0, 2⟩, ⟨31, 5, 0⟩] i
  | .setSpeed => cmdRow [⟨31, 0, 3⟩] i
  | .idle => seqRow 0x0 i
  | .waitFree => seqRow 0x1 i
  | .doStart => seqRow 0x2 i
  | .waitSb => seqRow 0x3 i
  | .doAddr => seqRow 0x4 i
  | .waitAddr => seqRow 0x5 i
  | .doTx => seqRow 0x6 i
  | .waitBtf => seqRow 0x7 i
  | .doAckSetup => seqRow 0x8 i
  | .waitRxne => seqRow 0x9 i
  | .doRxRead => seqRow 0xA i
  | .doAckOff => seqRow 0xB i
  | .doStop => seqRow 0xC i
  | .doErrOff => seqRow 0xD i

theorem execute (addr : Addr) (wlen rlen : BitVec 8) : Statement (.execute addr wlen rlen) := by
  refine ⟨_, rfl, ?_⟩
  have ha := addr_lt addr
  have hw : wlen.toNat < 256 := wlen.isLt
  have hr : rlen.toNat < 256 := rlen.isLt
  have hn : rlen.toNat * 2 ^ 20 + wlen.toNat * 2 ^ 12 + addr.toNat * 2 ^ 4 + 0x1 < 2 ^ 32 := by omega
  have h0 : (rlen.toNat * 2 ^ 20 + wlen.toNat * 2 ^ 12 + addr.toNat * 2 ^ 4 + 0x1) / 2 ^ 0 % 2 ^ 4 = 1 := by omega
  have h1 : (rlen.toNat * 2 ^ 20 + wlen.toNat * 2 ^ 12 + addr.toNat * 2 ^ 4 + 0x1) / 2 ^ 11 % 2 ^ 1 = 0 := by omega
  have h2 : (rlen.toNat * 2 ^ 20 + wlen.toNat * 2 ^ 12 + addr.toNat * 2 ^ 4 + 0x1) / 2 ^ 28 % 2 ^ 4 = 0 := by omega
  simp only [List.forall_mem_cons, field_toNat, BitVec.toNat_ofNat, Nat.mod_eq_of_lt hn]
  exact ⟨h0, h1, h2, by simp⟩

theorem selectPins (pair : Pin) : Statement (.selectPins pair) := ⟨_, rfl, by cases pair <;> decide⟩

theorem setSpeed : Statement .setSpeed := ⟨_, rfl, by decide⟩

theorem idle : Statement .idle := rfl

theorem waitFree : Statement .waitFree := rfl

theorem doStart : Statement .doStart := rfl

theorem waitSb : Statement .waitSb := rfl

theorem doAddr : Statement .doAddr := rfl

theorem waitAddr : Statement .waitAddr := rfl

theorem doTx : Statement .doTx := rfl

theorem waitBtf : Statement .waitBtf := rfl

theorem doAckSetup : Statement .doAckSetup := rfl

theorem waitRxne : Statement .waitRxne := rfl

theorem doRxRead : Statement .doRxRead := rfl

theorem doAckOff : Statement .doAckOff := rfl

theorem doStop : Statement .doStop := rfl

theorem doErrOff : Statement .doErrOff := rfl

end Sys2Proof.Laws.TableMatch
end

