-- ==== Sys2Proof/Laws/Trace.lean ====
section
/-! SUPPORT. How each reading of the history changes when one event is appended. -/

namespace Sys2Proof.Machine

open Sys2Proof

@[simp] theorem sinceAccept_snoc (h : List Event) (e : Event) :
    sinceAccept (h ++ [e]) = if e.isAccept then [e] else sinceAccept h ++ [e] := by
  simp [sinceAccept, List.foldl_append]

/-- Two events appended in one step, one after the other. -/
theorem append_pair (h : List Event) (e e' : Event) : h ++ [e, e'] = h ++ [e] ++ [e'] := by simp

@[simp] theorem received_snoc (h : List Event) (e : Event) :
    received (h ++ [e]) = if e.isAccept then [] else received h ++ e.rxByte?.toList := by
  cases e <;> simp [received, Event.isAccept, Event.rxByte?]

@[simp] theorem sent_snoc (h : List Event) (e : Event) :
    sent (h ++ [e]) = if e.isAccept then [] else sent h ++ e.dataByte?.toList := by
  cases e with
  | tx k b => cases k <;> simp [sent, Event.isAccept, Event.dataByte?]
  | _ => simp [sent, Event.isAccept, Event.dataByte?]

@[simp] theorem captures_snoc (h : List Event) (e : Event) :
    captures (h ++ [e]) = if e.isAccept then 0 else captures h + (if e.isErrlatch then 1 else 0) := by
  cases e <;> simp [captures, Event.isAccept, Event.isErrlatch]

@[simp] theorem controlBits_snoc (h : List Event) (e : Event) :
    controlBits (h ++ [e]) =
      match e with
      | .ack v => (v, (controlBits h).2)
      | .errie v => ((controlBits h).1, v)
      | .reinit _ _ _ => (false, false)
      | _ => controlBits h := by
  cases e <;> simp [controlBits, List.foldl_append]

@[simp] theorem dataSinceAddress_snoc (h : List Event) (e : Event) :
    dataSinceAddress (h ++ [e]) =
      match e with
      | .accept _ _ _ _ => false
      | .tx .addr _ => false
      | .tx .data _ => true
      | .rx _ => true
      | _ => dataSinceAddress h := by
  cases e with
  | tx k b => cases k <;> simp [dataSinceAddress, List.foldl_append]
  | _ => simp [dataSinceAddress, List.foldl_append]

@[simp] theorem acceptedPin_snoc (h : List Event) (e : Event) :
    acceptedPin (h ++ [e]) =
      match e with
      | .accept _ _ _ p => some p
      | _ => acceptedPin h := by
  cases e <;> simp [acceptedPin, List.foldl_append]

/-! The same for the two events that one step appends together (R101, R122, R171). -/

@[simp] theorem sinceAccept_pair (h : List Event) (e e' : Event) :
    sinceAccept (h ++ [e, e']) = if e'.isAccept then [e'] else sinceAccept (h ++ [e]) ++ [e'] := by
  rw [append_pair, sinceAccept_snoc]

@[simp] theorem received_pair (h : List Event) (e e' : Event) :
    received (h ++ [e, e']) = if e'.isAccept then [] else received (h ++ [e]) ++ e'.rxByte?.toList := by
  rw [append_pair, received_snoc]

@[simp] theorem sent_pair (h : List Event) (e e' : Event) :
    sent (h ++ [e, e']) = if e'.isAccept then [] else sent (h ++ [e]) ++ e'.dataByte?.toList := by
  rw [append_pair, sent_snoc]

@[simp] theorem captures_pair (h : List Event) (e e' : Event) :
    captures (h ++ [e, e']) =
      if e'.isAccept then 0 else captures (h ++ [e]) + (if e'.isErrlatch then 1 else 0) := by
  rw [append_pair, captures_snoc]

@[simp] theorem controlBits_pair (h : List Event) (e e' : Event) :
    controlBits (h ++ [e, e']) =
      match e' with
      | .ack v => (v, (controlBits (h ++ [e])).2)
      | .errie v => ((controlBits (h ++ [e])).1, v)
      | .reinit _ _ _ => (false, false)
      | _ => controlBits (h ++ [e]) := by
  rw [append_pair]
  exact controlBits_snoc _ _

@[simp] theorem dataSinceAddress_pair (h : List Event) (e e' : Event) :
    dataSinceAddress (h ++ [e, e']) =
      match e' with
      | .accept _ _ _ _ => false
      | .tx .addr _ => false
      | .tx .data _ => true
      | .rx _ => true
      | _ => dataSinceAddress (h ++ [e]) := by
  rw [append_pair]
  exact dataSinceAddress_snoc _ _

@[simp] theorem acceptedPin_pair (h : List Event) (e e' : Event) :
    acceptedPin (h ++ [e, e']) =
      match e' with
      | .accept _ _ _ p => some p
      | _ => acceptedPin (h ++ [e]) := by
  rw [append_pair]
  exact acceptedPin_snoc _ _

end Sys2Proof.Machine
end

