-- ==== Sys2Proof/Tests/Slice0.lean ====
section
/-! SUPPORT. Tests of the model: ill-formed terms, words written out from 30_encoding.md and the vectors of
95_test_vectors.md (each test names its own), one step each; and a witness for every statement that has hypotheses. -/

namespace Sys2Proof.Machine

open Sys2Proof

/-! ## The form of an instruction (R82, R86; vector V-ENC) -/

theorem test_wlen_125_is_ill_formed : (Instr.execute 0 125 0).wellFormed = false := by decide

theorem test_rlen_129_is_ill_formed : (Instr.execute 0 0 129).wellFormed = false := by decide

theorem test_largest_lengths_are_well_formed : (Instr.execute 0x7F 124 128).wellFormed = true := by decide

/-! ## Decoding. Command words: fields of R82, R83 written out by hand, bits 31 down to 0. Micro-states: R21's codes. -/

/-- `RLEN` 0x02, `WLEN` 0x01, bit 11 0, `ADDR` 0x50, `OP` 1 (V-ENC `0x00201501`). -/
theorem test_decode_execute :
    decode (.cmd 0b0000_00000010_00000001_0_1010000_0001) = .ok (.execute 0x50 1 2) := by decide

/-- `PAIR` 1, `OP` 2. -/
theorem test_decode_selectPins :
    decode (.cmd 0b000000000000000000000000000_1_0010) = .ok (.selectPins .pairB) := by decide

/-- `OP` 3. -/
theorem test_decode_setSpeed : decode (.cmd 0b0000000000000000000000000000_0011) = .ok .setSpeed := by decide

theorem test_decode_idle : decode (.seq 0b0000) = .ok .idle := by decide

theorem test_decode_waitFree : decode (.seq 0b0001) = .ok .waitFree := by decide

theorem test_decode_doStart : decode (.seq 0b0010) = .ok .doStart := by decide

theorem test_decode_waitSb : decode (.seq 0b0011) = .ok .waitSb := by decide

theorem test_decode_doAddr : decode (.seq 0b0100) = .ok .doAddr := by decide

theorem test_decode_waitAddr : decode (.seq 0b0101) = .ok .waitAddr := by decide

theorem test_decode_doTx : decode (.seq 0b0110) = .ok .doTx := by decide

theorem test_decode_waitBtf : decode (.seq 0b0111) = .ok .waitBtf := by decide

theorem test_decode_doAckSetup : decode (.seq 0b1000) = .ok .doAckSetup := by decide

theorem test_decode_waitRxne : decode (.seq 0b1001) = .ok .waitRxne := by decide

theorem test_decode_doRxRead : decode (.seq 0b1010) = .ok .doRxRead := by decide

theorem test_decode_doAckOff : decode (.seq 0b1011) = .ok .doAckOff := by decide

theorem test_decode_doStop : decode (.seq 0b1100) = .ok .doStop := by decide

theorem test_decode_doErrOff : decode (.seq 0b1101) = .ok .doErrOff := by decide

/-- The words that V-ENC calls illegal, each with the check that refuses it. -/
theorem test_illegal_words :
    decode (.cmd 0x0007D001) = .rejected .writeLength ∧
    decode (.cmd 0x08100001) = .rejected .readLength ∧
    decode (.cmd 0x0FF00001) = .rejected .readLength ∧
    decode (.cmd 0x00000801) = .rejected .reservedBit ∧
    decode (.cmd 0x10000001) = .rejected .reservedBit ∧
    decode (.cmd 0x00000022) = .rejected .reservedBit ∧
    decode (.cmd 0x00000013) = .rejected .reservedBit ∧
    decode (.cmd 0x00000000) = .rejected .operation ∧
    decode (.cmd 0x00000004) = .rejected .operation ∧
    decode (.cmd 0x0000000F) = .rejected .operation ∧
    decode (.cmd 0xFFFFFFFF) = .rejected .operation := by decide

theorem test_codes_14_and_15_are_refused :
    decode (.seq 14) = .rejected .sequencerCode ∧ decode (.seq 15) = .rejected .sequencerCode := by decide

/-- The words of R92 from the other side. -/
theorem test_encode :
    encode (.execute 0x50 1 2) = .cmd 0x00201501 ∧
    encode (.execute 0x7F 124 128) = .cmd 0x0807C7F1 ∧
    encode (.execute 0x50 0 0) = .cmd 0x00000501 ∧
    encode (.selectPins .pairA) = .cmd 0x00000002 ∧
    encode (.selectPins .pairB) = .cmd 0x00000012 ∧
    encode .setSpeed = .cmd 0x00000003 ∧
    encode .doErrOff = .seq 13 := by decide

/-- The table's numbering: a 32-bit row is a command word, a 4-bit row (one whole byte) a sequencer code. -/
theorem test_table_words :
    decodeTableWord 32 0x00000501 = some (.execute 0x50 0 0) ∧
    decodeTableWord 8 0x0B = some .doAckOff ∧
    decodeTableWord 8 0x0E = none ∧
    decodeTableWord 8 0x13 = none ∧
    decodeTableWord 32 0x00000004 = none := by decide

/-! ## One step of each instruction -/

/-- The next state, if there is one. -/
def after : Host.Outcome State Fault Refusal → Option State
  | .next t => some t
  | .fault _ => none
  | .refused _ => none

/-- At micro-state `c` of a write of two bytes and a read of three, accepted at 1000 (R101). -/
def running (c : BitVec 4) : State :=
  { State.reset with
    seq := c, now := 1000, deadline := 1050, reqAddr := 0x50, reqWlen := 2, reqRlen := 3
    crErrie := true, pin := .pairA, hz := 100000 }

/-- The same once its deadline has passed (V-CMP). -/
def late (c : BitVec 4) : State := { running c with now := 1051 }

/-- R101 and V-TIMEOUT: accepted at 0xFFFFFFF0, the deadline wraps to 0x22. -/
theorem test_execute_deadline_wraps :
    (after (exec (.execute 0x50 1 2) { State.reset with now := 0xFFFFFFF0 })).map
      (fun t => (t.deadline, t.seq, t.ph, t.resp)) = some (0x00000022, 1, .W, .accepted) := by decide

/-- V-ENC and R102: a legal EXECUTE while `BUSY = 1` gives `RESP = BUSY` and starts nothing. -/
theorem test_execute_busy :
    (after (exec (.execute 0x11 0 1) (running 7))).map (fun t => (t.resp, t.seq, t.reqAddr)) =
      some (.busy, 7, 0x50) := by decide

/-- V-PINS, third row: the pair already selected; the reinit still runs. -/
theorem test_selectPins_same_pair :
    (after (exec (.selectPins .pairB) { State.reset with pin := .pairB, crAck := true })).map
      (fun t => (t.pin, t.crAck, t.resp, pinMode t .pairA, pinMode t .pairB, t.hist.length)) =
      some (.pairB, false, .ok, .input, .afOpenDrain, 2) := by decide

/-- V-ENC: a legal SELECT_PINS while `BUSY = 1` faults `CONFIG_WHILE_ACTIVE`. -/
theorem test_selectPins_busy :
    (after (exec (.selectPins .pairB) (running 3))).map (fun t => (t.pin, t.resp, t.fault)) =
      some (.pairA, .none, [.configWhileActive]) := by decide

/-- V-SPEED: 400000 is accepted. -/
theorem test_setSpeed_ceiling :
    (after (exec .setSpeed { State.reset with speedArg := 400000 })).map (fun t => (t.hz, t.resp)) =
      some (0x00061A80, .ok) := by decide

/-- V-SPEED: 400001 is rejected and `HZ` keeps its value. -/
theorem test_setSpeed_above_ceiling :
    (after (exec .setSpeed { State.reset with hz := 100000, speedArg := 0x00061A81 })).map
      (fun t => (t.hz, t.resp, t.hist.length)) = some (100000, .configError, 1) := by decide

/-- R21. -/
theorem test_idle : (after (exec .idle State.reset)).map State.seq = some 0 := by decide

/-- V-POLL: WAIT_FREE has no error test: `sr` 0x20 with the latch set goes on. -/
theorem test_waitFree_ignores_errors :
    (after (exec .waitFree { running 1 with srIn := [0x20], latchSet := true })).map State.seq = some 2 := by decide

/-- V-POLL: a busy bus past the deadline. -/
theorem test_waitFree_times_out :
    (after (exec .waitFree { late 1 with srIn := [0x01] })).map (fun t => (t.seq, t.outcome)) =
      some (12, .timeout) := by decide

/-- R111. -/
theorem test_doStart :
    (after (exec .doStart (running 2))).map (fun t => (t.seq, t.hist.getLast?)) = some (3, some .start) := by decide

/-- V-POLL: success wins over timeout, and there is no error test. -/
theorem test_waitSb_success_wins :
    (after (exec .waitSb { late 3 with srIn := [0x02], latchSet := true })).map State.seq = some 4 := by decide

/-- V-POLL: NACK alone stays. -/
theorem test_waitSb_stays :
    (after (exec .waitSb { running 3 with srIn := [0x20] })).map State.seq = some 3 := by decide

/-- V-ADDR. -/
theorem test_doAddr_bytes :
    addressByte 0x00 .W = 0x00 ∧ addressByte 0x00 .R = 0x01 ∧ addressByte 0x50 .W = 0xA0 ∧
    addressByte 0x50 .R = 0xA1 ∧ addressByte 0x51 .W = 0xA2 ∧ addressByte 0x51 .R = 0xA3 ∧
    addressByte 0x7F .W = 0xFE ∧ addressByte 0x7F .R = 0xFF := by decide

/-- V-POLL: an error wins over the acknowledged address. -/
theorem test_waitAddr_error_wins :
    (after (exec .waitAddr { running 5 with srIn := [0x24] })).map (fun t => (t.seq, t.outcome)) =
      some (12, .addressNack) := by decide

/-- V-POLL: the probe ends `OK`. -/
theorem test_waitAddr_probe :
    (after (exec .waitAddr { running 5 with reqWlen := 0, reqRlen := 0, srIn := [0x04] })).map
      (fun t => (t.seq, t.outcome)) = some (12, .ok) := by decide

/-- R115: the byte at `IDX` is sent, and `IDX` does not move yet. -/
theorem test_doTx :
    (after (exec .doTx { running 6 with idx := 1, wbuf := [(0, 0xAA), (1, 0x5C)] })).map
      (fun t => (t.seq, t.idx, t.hist.getLast?.bind Event.dataByte?)) = some (7, 1, some 0x5C) := by decide

/-- R115: a cell that HOST never wrote. -/
theorem test_doTx_unwritten :
    (after (exec .doTx (running 6))).map (fun t => (t.seq, t.fault)) = some (6, [.wbufUnwritten]) := by decide

/-- V-POLL: `IDX = 1`, `WLEN = 2`, `RLEN = 3`: the repeated START. -/
theorem test_waitBtf_restarts :
    (after (exec .waitBtf { running 7 with idx := 1, srIn := [0x08] })).map (fun t => (t.seq, t.idx, t.ph)) =
      some (2, 0, .R) := by decide

/-- V-POLL: NACK on the last byte. -/
theorem test_waitBtf_nack :
    (after (exec .waitBtf { running 7 with idx := 1, reqRlen := 0, srIn := [0x28] })).map
      (fun t => (t.seq, t.outcome)) = some (12, .dataNack) := by decide

/-- V-ACK, `RLEN` 1: `EV_ACK(0)`. -/
theorem test_doAckSetup_one_byte :
    (after (exec .doAckSetup { running 8 with ph := .R, reqRlen := 1, crAck := true })).map
      (fun t => (t.seq, t.crAck, t.idx)) = some (9, false, 0) := by decide

/-- V-ACK, `RLEN` 2: `EV_ACK(1)`. -/
theorem test_doAckSetup_two_bytes :
    (after (exec .doAckSetup { running 8 with ph := .R, reqRlen := 2 })).map
      (fun t => (t.seq, t.crAck, t.idx)) = some (9, true, 0) := by decide

/-- V-POLL: the latch wins over the received byte. -/
theorem test_waitRxne_latched :
    (after (exec .waitRxne { running 9 with ph := .R, srIn := [0x10], latchSet := true })).map
      (fun t => (t.seq, t.outcome)) = some (12, .dataNack) := by decide

/-- V-POLL: success wins over timeout. -/
theorem test_waitRxne_ready :
    (after (exec .waitRxne { late 9 with ph := .R, srIn := [0x10] })).map State.seq = some 10 := by decide

/-- V-ACK, `RLEN = 3`: `IDX` 1 to 2 goes to DO_ACK_OFF. -/
theorem test_doRxRead_last_but_one :
    (after (exec .doRxRead { running 10 with ph := .R, idx := 1, drIn := [0xBB], rbuf := [(0, 0xAA)] })).map
      (fun t => (t.seq, t.idx, t.rbuf)) = some (11, 2, [(0, 0xAA), (1, 0xBB)]) := by decide

/-- V-ACK, `RLEN = 128`: at the end `IDX = 128`. -/
theorem test_doRxRead_last_of_128 :
    (after (exec .doRxRead { running 10 with ph := .R, reqRlen := 128, idx := 127, drIn := [0x99] })).map
      (fun t => (t.seq, t.idx, t.outcome, Memory.read t.rbuf 127)) = some (12, 128, .ok, some 0x99) := by decide

/-- R120. -/
theorem test_doAckOff :
    (after (exec .doAckOff { running 11 with crAck := true })).map (fun t => (t.seq, t.crAck)) =
      some (9, false) := by decide

/-- R121. -/
theorem test_doStop :
    (after (exec .doStop { running 12 with outcome := .timeout })).map (fun t => (t.seq, t.outcome, t.result)) =
      some (13, .timeout, .none) := by decide

/-- R122: a failed read leaves no byte. -/
theorem test_doErrOff_fails :
    (after (exec .doErrOff { running 13 with outcome := .dataNack, rbuf := [(0, 1)] })).map
      (fun t => (t.seq, t.result, t.rbuf, t.crErrie)) = some (0, .dataNack, [], false) := by decide

/-- R122: a successful one keeps them. -/
theorem test_doErrOff_succeeds :
    (after (exec .doErrOff { running 13 with outcome := .ok, rbuf := [(0, 1)] })).map
      (fun t => (t.result, t.rbuf)) = some (.ok, [(0, 1)]) := by decide

/-! ## The comparator, the error latch and the host registers -/

/-- V-CMP, all eight rows. -/
theorem test_deadline_comparator :
    timedOut { State.reset with deadline := 1050, now := 1000 } = false ∧
    timedOut { State.reset with deadline := 1050, now := 1050 } = false ∧
    timedOut { State.reset with deadline := 1050, now := 1051 } = true ∧
    timedOut { State.reset with deadline := 1050, now := 1050 + 0x7FFFFFFF } = true ∧
    timedOut { State.reset with deadline := 1050, now := 1050 + 0x80000000 } = false ∧
    timedOut { State.reset with deadline := 0x22, now := 0xFFFFFFF0 } = false ∧
    timedOut { State.reset with deadline := 0x22, now := 0x22 } = false ∧
    timedOut { State.reset with deadline := 0x22, now := 0x23 } = true := by decide

/-- V-LATCH: a capture of `s = 0` still sets the latch, and disables the interrupt. -/
theorem test_capture :
    (after (step { running 5 with agenda := [.busError 0] })).map (fun t => (t.latchSet, t.crErrie, t.hist.length)) =
      some (true, false, 3) := by decide

/-- V-LATCH: no change while `CR_ERRIE = 0`. -/
theorem test_capture_disabled :
    (after (step { State.reset with agenda := [.busError 0] })).map
      (fun t => (t.latchSet, t.crErrie, t.hist.length)) = some (false, false, 1) := by decide

/-- R185: the tick counter wraps. -/
theorem test_tick_wraps :
    (after (step { State.reset with now := 0xFFFFFFFF, agenda := [.tick] })).map State.now = some 0 := by decide

/-- V-HOST: reads from the reset state. -/
theorem test_host_reads_at_reset :
    (after (hostStep (.read 0x008 4) State.reset)).map State.returned = some [7] ∧
    (after (hostStep (.read 0x00C 4) State.reset)).map State.returned = some [0] ∧
    (after (hostStep (.read 0x010 4) State.reset)).map State.returned = some [7] ∧
    (after (hostStep (.read 0x000 4) State.reset)).map State.returned = some [0] ∧
    (after (hostStep (.read 0x100 4) State.reset)).map State.fault = some [.wbufUnwritten] ∧
    (after (hostStep (.read 0x300 4) State.reset)).map State.fault = some [.rbufInvalid] := by decide

/-- V-HOST: a write keeps the low byte; the word read back is zero-extended. -/
theorem test_host_wbuf :
    (after (hostStep (.write 0x100 4 0x000001FF) State.reset)).map State.wbuf = some [(0, 0xFF)] ∧
    (after (hostStep (.read 0x100 4) { State.reset with wbuf := [(0, 0xFF)] })).map State.returned =
      some [0x000000FF] := by decide

/-- V-HOST: the refused accesses. -/
theorem test_host_bad_accesses :
    (after (hostStep (.read 0x001 4) State.reset)).map State.fault = some [.badHostAccess] ∧
    (after (hostStep (.read 0x01C 4) State.reset)).map State.fault = some [.badHostAccess] ∧
    (after (hostStep (.read 0x2F0 4) State.reset)).map State.fault = some [.badHostAccess] ∧
    (after (hostStep (.read 0x500 4) State.reset)).map State.fault = some [.badHostAccess] ∧
    (after (hostStep (.read 0x008 2) State.reset)).map State.fault = some [.badHostAccess] := by decide

/-- V-HOST: accesses while `BUSY = 1`. -/
theorem test_host_while_busy :
    (after (hostStep (.write 0x104 4 0x12) (running 5))).map State.fault = some [.hostWriteWhileActive] ∧
    (after (hostStep (.read 0x300 4) (running 5))).map State.fault = some [.hostReadWhileActive] ∧
    (after (hostStep (.read 0x00C 4) (running 5))).map State.returned = some [1] := by decide

/-- V-ENC: with `BUSY = 1` an illegal word still faults `ILLEGAL_COMMAND`; V-HOST: no access after a fault. -/
theorem test_illegal_while_busy :
    (after (hostStep (.write 0x000 4 0x0000000F) (running 5))).map State.fault = some [.illegalCommand] ∧
    hostStep (.read 0x008 4) { State.reset with fault := [.illegalCommand] } = .refused .illegalCommand := by
  exact ⟨by decide, rfl⟩

/-- V-STEPS. -/
theorem test_step_counts :
    minSteps 0 0 = 7 ∧ minSteps 1 0 = 9 ∧ minSteps 2 0 = 11 ∧ minSteps 0 1 = 10 ∧ minSteps 0 2 = 13 ∧
    minSteps 1 2 = 19 ∧ minSteps 124 128 = 517 := by decide

/-- R89 and program P1: the EXECUTE line of an EEPROM random read. -/
theorem test_execute_line :
    expand (.execute 0x50 2 [0x00]) = [.write 0x100 4 0x00000000, .write 0x000 4 0x00201501] := by decide

/-- R90: `WAIT` reads `STATUS` until bit 0 is 0, whatever `DONE` reads, then `RESULT`, and is at its end. -/
theorem test_wait :
    asmProgram [.wait] 0 [] = some (.read 0x00C 4) ∧ asmProgram [.wait] 1 [1] = some (.read 0x00C 4) ∧
    asmProgram [.wait] 2 [1, 2] = some (.read 0x010 4) ∧ asmProgram [.wait] 3 [1, 2, 0] = none := by decide

/-- R90: `CALL` of a read of two bytes goes on after `ACCEPTED`, and reads `RBUF` only when `RESULT = OK`. -/
theorem test_call :
    asmProgram [.call 0x50 2 []] 1 [] = some (.read 0x008 4) ∧
    asmProgram [.call 0x50 2 []] 4 [6, 0, 0] = some (.read 0x300 4) ∧
    asmProgram [.call 0x50 2 []] 5 [6, 0, 0, 7] = some (.read 0x304 4) ∧
    asmProgram [.call 0x50 2 []] 4 [6, 0, 1] = none := by decide

/-- A micro-state and a command placed by the host's words run in the very next step. -/
theorem test_withFetchWord :
    (after (step (State.reset.withFetchWord 8 0x02))).map State.seq = some 3 ∧
    (after (step (State.reset.withFetchWord 32 0x00000501))).map (fun t => (t.resp, t.seq)) =
      some (.accepted, 1) := by decide

/-! ## Witnesses: a state and operands that meet each statement's hypotheses -/

/-- Reading the second of two bytes after one written byte (program P1), with a captured status read. -/
def midRead : State :=
  { State.reset with
    seq := 10, ph := .R, idx := 1, now := 1000, deadline := 1050, reqAddr := 0x50, reqWlen := 1, reqRlen := 2
    crErrie := true, pin := .pairA, hz := 100000, wbuf := [(0, 0x00)], rbuf := [(0, 0xAA)], resp := .accepted
    hist := [.accept 0x50 1 2 .pairA, .errie true, .sr 0, .start, .sr 2, .tx .addr 0xA0, .sr 4, .tx .data 0x00,
      .sr 8, .start, .sr 2, .tx .addr 0xA1, .sr 4, .ack true, .sr 0x10, .rx 0xAA, .ack false, .sr 0x10]
    drIn := [0xBB], agenda := [.engine] }

/-- The same transaction with its STOP asserted, about to post `OK`. -/
def midStop : State :=
  { midRead with
    seq := 13, idx := 2, outcome := .ok, rbuf := [(0, 0xAA), (1, 0xBB)]
    hist := midRead.hist ++ [.rx 0xBB, .stop], drIn := [] }

theorem witness_sequencer_invariant : SequencerInv midRead ∧ SequencerInv midStop := by
  constructor <;> constructor <;> decide

theorem witness_step : (∃ t, step midRead = .next t) ∧ ∃ t, step midStop = .next t := ⟨⟨_, rfl⟩, ⟨_, rfl⟩⟩

theorem witness_DecodeReadsBackEncode :
    Instr.WellFormed (.execute 0x7F 124 128) ∧ Instr.WellFormed (.execute 0 0 0) ∧ Instr.WellFormed .doErrOff := by
  decide

theorem witness_EncodeReadsBackDecode :
    decode (.cmd 0x0807C7F1) = .ok (.execute 0x7F 124 128) ∧ decode (.seq 13) = .ok .doErrOff := by decide

/-- Each of the four kinds of illegal word, and a legal one, at boundary values. -/
theorem witness_IllegalWordsFaultAndNothingElse :
    State.reset.fault = [] ∧
    (field 0x00000004 0 4 ≠ 1 ∧ field 0x00000004 0 4 ≠ 2 ∧ field 0x00000004 0 4 ≠ 3) ∧
    (field 0x0007D001 0 4 = 1 ∧ 124 < (field 0x0007D001 12 8).toNat) ∧
    (field 0x08100001 0 4 = 1 ∧ 128 < (field 0x08100001 20 8).toNat) ∧
    (field 0x00000801 0 4 = 1 ∧ field 0x00000801 11 1 ≠ 0) ∧
    (field 0x10000001 0 4 = 1 ∧ field 0x10000001 28 4 ≠ 0) ∧
    (field 0x00000022 0 4 = 2 ∧ field 0x00000022 5 27 ≠ 0) ∧
    (field 0x00000013 0 4 = 3 ∧ field 0x00000013 4 28 ≠ 0) ∧
    (field 0x0807C7F1 0 4 = 1 ∧ field 0x0807C7F1 11 1 = 0 ∧ field 0x0807C7F1 28 4 = 0 ∧
      (field 0x0807C7F1 12 8).toNat = 124 ∧ (field 0x0807C7F1 20 8).toNat = 128) := by decide

/-- Both phases an accepted EXECUTE can start with. -/
theorem witness_ExecuteAcceptedWhileIdle :
    Instr.WellFormed (.execute 0x7F 124 128) ∧ Instr.WellFormed (.execute 0 0 1) ∧
      State.reset.fault = [] ∧ State.reset.seq = 0 := by decide

theorem witness_ExecuteRejectedWhileBusy : midRead.fault = [] ∧ midRead.seq ≠ 0 := by decide

theorem witness_SelectPinsAcceptedWhileIdle :
    State.reset.fault = [] ∧ State.reset.seq = 0 ∧ Pin.pairB ≠ Pin.pairA := by decide

theorem witness_SetSpeedAcceptedUpToCeiling :
    ({ State.reset with speedArg := 400000 } : State).fault = [] ∧
    ({ State.reset with speedArg := 400000 } : State).seq = 0 ∧
    ({ State.reset with speedArg := 400000 } : State).speedArg.toNat ≤ 400000 := by decide

theorem witness_SetSpeedRejectedAboveCeiling :
    ({ State.reset with speedArg := 400001 } : State).fault = [] ∧
    ({ State.reset with speedArg := 400001 } : State).seq = 0 ∧
    400000 < ({ State.reset with speedArg := 400001 } : State).speedArg.toNat := by decide

theorem witness_ConfigurationWhileActiveFaults : midRead.fault = [] ∧ midRead.seq ≠ 0 := by decide

/-- `s.fault = []` alone (IdleChangesNothing and the micro-states), with each way their branches can go: the answers 0
and 63 settle every status test, and `running` and `late` the deadline. -/
theorem witness_micro_states :
    (running 0).fault = [] ∧
    nextSR { running 1 with srIn := [0] } = 0 ∧ nextSR { running 1 with srIn := [63] } = 63 ∧
    timedOut (running 1) = false ∧ timedOut (late 1) = true ∧
    pollError 0 (running 5) = false ∧ pollError 63 (running 5) = true ∧
    pollError 0 { running 5 with latchSet := true } = true := by decide

/-- Both phases, and each side of the byte counts in WAIT_ADDR, WAIT_BTF and DO_ACK_SETUP. -/
theorem witness_counts :
    (running 5).ph = .W ∧ ({ running 5 with ph := .R } : State).ph = .R ∧
    0 < (running 5).reqWlen.toNat ∧ ({ running 5 with reqWlen := 0 } : State).reqWlen.toNat = 0 ∧
    (running 7).idx.toNat + 1 < (running 7).reqWlen.toNat ∧
    ¬({ running 7 with idx := 1 } : State).idx.toNat + 1 < (running 7).reqWlen.toNat ∧
    1 < (running 8).reqRlen.toNat ∧ ¬1 < ({ running 8 with reqRlen := 1 } : State).reqRlen.toNat := by decide

/-- The last cell, written and not. -/
theorem witness_DoTxSendsTheBufferByte :
    let s : State := { running 6 with idx := 123, wbuf := [(123, 0x77)] }
    let t : State := { running 6 with idx := 123 }
    (s.fault = [] ∧ s.idx.toNat < 124 ∧ Memory.read s.wbuf s.idx.toNat = some 0x77) ∧
    (t.fault = [] ∧ t.idx.toNat < 124 ∧ Memory.read t.wbuf t.idx.toNat = none) := by decide

/-- The first index past each buffer. -/
theorem witness_TransfersPastTheLastCell :
    let t : State := { running 6 with idx := 124 }
    let u : State := { running 10 with idx := 128 }
    (t.fault = [] ∧ 124 ≤ t.idx.toNat) ∧ (u.fault = [] ∧ 128 ≤ u.idx.toNat) := by decide

/-- The three continuations of a stored byte: last, last but one, earlier. -/
theorem witness_DoRxReadStoresTheByte :
    let s : State := { running 10 with idx := 127, reqRlen := 128 }
    let t : State := { running 10 with idx := 126, reqRlen := 128 }
    let u : State := { running 10 with idx := 125, reqRlen := 128 }
    (s.fault = [] ∧ s.idx.toNat < 128 ∧ s.idx.toNat + 1 = s.reqRlen.toNat) ∧
    (t.fault = [] ∧ t.idx.toNat < 128 ∧ t.idx.toNat + 2 = t.reqRlen.toNat) ∧
    (u.fault = [] ∧ u.idx.toNat < 128 ∧ u.idx.toNat + 1 ≠ u.reqRlen.toNat ∧ u.idx.toNat + 2 ≠ u.reqRlen.toNat) := by
  decide

/-- An ended and a failed transaction at DO_ERR_OFF. -/
theorem witness_DoErrOffPostsTheResult :
    midStop.fault = [] ∧ midStop.outcome = .ok ∧ ({ midStop with outcome := .timeout } : State).outcome ≠ .ok := by
  decide

theorem witness_NoInstructionStopsWithoutAFault : State.reset.fault = [] ∧ midRead.fault = [] := by decide

theorem witness_StepRunsTheDecodedInstruction :
    (nextTurn midRead = .engine ∧ decode (.seq midRead.seq) = .ok .doRxRead) ∧
    (nextTurn { State.reset with agenda := [.host (.write 0x000 4 0x501)] } = .host (.write 0x000 4 0x501) ∧
      decode (.cmd 0x501) = .ok (.execute 0x50 0 0)) := by decide

theorem witness_PlacedInstructionRunsNext :
    Instr.WellFormed (.execute 0x50 1 2) ∧ Instr.WellFormed .doRxRead := by decide

theorem witness_OnlyTickAdvancesNow :
    let s : State := { State.reset with agenda := [.tick] }
    (s.fault = [] ∧ nextTurn s = .tick) ∧ nextTurn midRead ≠ .tick := by decide

/-- With the interrupt enabled and disabled. -/
theorem witness_BusErrorIsCapturedOnlyWhileEnabled :
    let s : State := { midRead with agenda := [.busError 0] }
    let t : State := { State.reset with agenda := [.busError 0] }
    (s.fault = [] ∧ nextTurn s = .busError 0 ∧ s.crErrie = true) ∧
    (t.fault = [] ∧ nextTurn t = .busError 0 ∧ t.crErrie = false) :=
  ⟨⟨rfl, rfl, rfl⟩, rfl, rfl, rfl⟩

theorem witness_UnheldCodesFaultBadSeq :
    let s : State := { State.reset with seq := 14, agenda := [.engine] }
    let t : State := { State.reset with seq := 15, agenda := [.engine] }
    (s.fault = [] ∧ nextTurn s = .engine ∧ s.seq = 14) ∧ (t.fault = [] ∧ nextTurn t = .engine ∧ t.seq = 15) := by
  decide

/-- A step that faults, and a faulted state. -/
theorem witness_FaultIsStickyAndQuiescent :
    (∃ t, step { running 6 with agenda := [.engine] } = .next t ∧ t.fault ≠ []) ∧
    ({ State.reset with fault := [.badSeq] } : State).fault = .badSeq :: [] :=
  ⟨⟨_, rfl, by decide⟩, rfl⟩

/-- The last cell of the write buffer, written and not. -/
theorem witness_HostReadsTheRegisterMap :
    State.reset.fault = [] ∧ (123 : Nat) < 124 ∧ Memory.read State.reset.wbuf 123 = none ∧
    Memory.read ({ State.reset with wbuf := [(123, 0x12)] } : State).wbuf 123 = some 0x12 := by decide

/-- The last cell of the read buffer: busy, not received, received. -/
theorem witness_HostReadsTheReadBuffer :
    (127 : Nat) < 128 ∧ State.reset.fault = [] ∧ midRead.seq ≠ 0 ∧ State.reset.seq = 0 ∧
    Memory.read State.reset.rbuf 127 = none ∧
    Memory.read ({ State.reset with rbuf := [(127, 0x34)] } : State).rbuf 127 = some 0x34 := by decide

theorem witness_HostWritesTheRegisterMap :
    State.reset.fault = [] ∧ (123 : Nat) < 124 ∧ (0x018 : Nat) ∈ [0x008, 0x00C, 0x010, 0x014, 0x018] ∧ (127 : Nat) < 128 := by decide

theorem witness_HostWritesTheWriteBufferWhileIdle :
    (123 : Nat) < 124 ∧ State.reset.fault = [] ∧ State.reset.seq = 0 ∧ midRead.fault = [] ∧ midRead.seq ≠ 0 := by
  decide

/-- The width, the alignment, and the ends of the three unmapped ranges. -/
theorem witness_BadHostAccessFaults :
    State.reset.fault = [] ∧ (2 : Nat) ≠ 4 ∧ (0x001 : Nat) % 4 ≠ 0 ∧
    ((0x018 : Nat) < 0x01C ∧ (0x0FC : Nat) < 0x100) ∧ ((0x2EC : Nat) < 0x2F0 ∧ (0x2FC : Nat) < 0x300) ∧
    (0x4FC : Nat) < 0x500 := by decide

theorem witness_ExecuteLineIssuesItsCommand :
    (List.replicate 124 (0x5A : Byte)).length ≤ 124 ∧ (128 : BitVec 8).toNat ≤ 128 ∧
    (List.replicate 124 (0x5A : Byte))[123]? = some 0x5A := ⟨by simp, by decide, by simp⟩

theorem witness_BuffersWf : midRead.BuffersWf ∧ midStop.BuffersWf := ⟨⟨by decide, by decide⟩, by decide, by decide⟩

theorem witness_CodesInv : CodesInv midRead := by constructor <;> decide

theorem witness_StopInv : StopInv midRead ∧ StopInv midStop := by
  have key : Unstopped (sinceAccept midRead.hist ++ [.rx 0xBB]) := by
    simp [Unstopped, midRead, sinceAccept, Event.isAccept]
  refine ⟨⟨fun _ _ => ?_, fun h => absurd h (by decide), fun h => absurd h (by decide)⟩,
    ⟨fun _ h => absurd h (by decide), fun _ => ⟨_, [], rfl, key, by simp⟩, fun h => absurd h (by decide)⟩⟩
  simp [Unstopped, midRead, sinceAccept, Event.isAccept]

theorem witness_AddressNackInv :
    AddressNackInv midRead ∧ (({ running 5 with hist := [.tx .addr 0xA0] } : State).seq = 5 ∧
      dataSinceAddress [.tx .addr 0xA0] = false) := by
  unfold AddressNackInv
  decide

/-- At the last byte, and at an earlier one. -/
theorem witness_AckInv :
    AckInv midRead ∧
      AckInv { midRead with idx := 0, crAck := true, hist := midRead.hist ++ [.ack true] } := by
  constructor <;> constructor <;> decide

theorem witness_OnePinInv : OnePinInv midRead := by
  unfold OnePinInv
  decide

/-- Before and after a capture. -/
theorem witness_LatchInv :
    LatchInv midRead ∧
      LatchInv { midRead with crErrie := false, latchSet := true, hist := midRead.hist ++ [.errlatch 0, .errie false] } :=
  ⟨⟨by decide, by decide, by decide⟩, ⟨by decide, by decide, by decide⟩⟩

theorem witness_TransferInv : TransferInv midRead := by
  have hs : sent midRead.hist = [0x00] := by decide
  have hr : received midRead.hist = [0xAA] := by decide
  refine ⟨fun _ k b h => ?_, fun _ _ k => ?_, fun _ h => absurd h (by decide), fun h => absurd h (by decide),
    fun h => absurd h (by decide), fun h => absurd h (by decide), fun _ => by rw [hs, hr]; decide,
    fun h => absurd h (by decide), fun h => absurd h (by decide)⟩
  · rw [hs] at h
    cases k with
    | zero => simpa [midRead, Memory.read] using h
    | succ k => simp at h
  · rw [hr]
    cases k with
    | zero => rfl
    | succ k => simp [midRead, Memory.read]

/-- The hypotheses of every invariant statement, at one state, with its step. -/
theorem witness_invariants_together :
    midRead.BuffersWf ∧ SequencerInv midRead ∧ CodesInv midRead ∧ StopInv midRead ∧ AddressNackInv midRead ∧
      AckInv midRead ∧ OnePinInv midRead ∧ LatchInv midRead ∧ TransferInv midRead ∧ ∃ t, step midRead = .next t :=
  ⟨witness_BuffersWf.1, witness_sequencer_invariant.1, witness_CodesInv, witness_StopInv.1, witness_AddressNackInv.1,
    witness_AckInv.1, witness_OnePinInv, witness_LatchInv.1, witness_TransferInv, witness_step.1⟩

theorem witness_ConfigurationIsHeldWhileBusy : (∃ t, step midRead = .next t) ∧ midRead.seq ≠ 0 :=
  ⟨witness_step.1, by decide⟩

/-- An instruction of each kind the frames name, with a next state. -/
theorem witness_frames :
    (∃ t, exec (.execute 0x50 1 2) State.reset = .next t) ∧ (∃ t, exec (.selectPins .pairB) State.reset = .next t) ∧
    (∃ t, exec .setSpeed State.reset = .next t) ∧ (∃ t, exec .waitBtf (running 7) = .next t) ∧
    (∃ t, exec .doTx (running 6) = .next t) ∧ (∃ t, exec .doRxRead midRead = .next t) ∧
    ∃ t, exec .doErrOff midStop = .next t :=
  ⟨⟨_, rfl⟩, ⟨_, rfl⟩, ⟨_, rfl⟩, ⟨_, rfl⟩, ⟨_, rfl⟩, ⟨_, rfl⟩, ⟨_, rfl⟩⟩

/-- Every micro-state from which a next state without a fault can be reached. -/
theorem witness_MicroStatesHaveOnlyTheirSuccessors :
    ∀ c : Fin 14, (after (engineStep { running (BitVec.ofNat 4 c.val) with wbuf := [(0, 1)], srIn := [0], drIn := [0] })).map
      State.fault = some [] := by decide

/-- Before the window, at both of its ends, and past it. -/
theorem witness_DeadlinePassesInItsWindow :
    ∀ n ∈ [50, 51, 2 ^ 31 + 49, 2 ^ 31 + 50],
      ({ State.reset with deadline := 1050, now := 1000 + BitVec.ofNat 32 n } : State).deadline = 1000 + 50 := by
  decide

/-- An accept from reset, and an answered poll in the read phase. -/
theorem witness_AnsweredStepsCountDownFromSMin :
    (Instr.WellFormed (.execute 0x7F 124 128) ∧ State.reset.fault = [] ∧ State.reset.seq = 0 ∧
      ∃ t, exec (.execute 0x7F 124 128) State.reset = .next t) ∧
    (midRead.fault = [] ∧ SequencerInv midRead ∧ midRead.seq ≠ 0 ∧ favourable midRead = true) :=
  ⟨⟨by decide, rfl, rfl, _, rfl⟩, rfl, witness_sequencer_invariant.1, by decide, by decide⟩

theorem witness_ExpiredTransactionEndsOrFaults :
    let s : State := { midRead with now := 1051 }
    s.fault = [] ∧ SequencerInv s ∧ timedOut s = true := by
  refine ⟨rfl, ?_, by decide⟩
  constructor <;> decide

/-- The state in which `midStop`'s transaction has posted `OK` (R122). -/
def midEnd : State :=
  { midStop with
    seq := 0, crErrie := false, result := .ok, outcome := .none, hist := midStop.hist ++ [.errie false, .done .ok] }

/-- The run that posts the result of `midStop` and then only ticks. -/
def endRun : Run where
  turn
    | 0 => .engine
    | _ + 1 => .tick
  state
    | 0 => midStop
    | n + 1 => { midEnd with now := midEnd.now + BitVec.ofNat 32 n }
  moves
    | 0 => Moves.of_agentStep rfl
    | n + 1 => by
      have hn : midEnd.now + BitVec.ofNat 32 n + 1 = midEnd.now + BitVec.ofNat 32 (n + 1) := by
        rw [BitVec.ofNat_add, ← BitVec.add_assoc]
        rfl
      have ht : agentStep .tick { midEnd with now := midEnd.now + BitVec.ofNat 32 n } =
          .next { midEnd with now := midEnd.now + BitVec.ofNat 32 n + 1 } := rfl
      rw [hn] at ht
      exact Moves.of_agentStep ht

theorem witness_EveryTransactionEndsOnAFairRun :
    endRun.Fair ∧ SequencerInv (endRun.state 0) ∧ isBusy (endRun.state 0) = true := by
  refine ⟨⟨⟨fun n => ⟨n + 1, Nat.le_succ n, rfl⟩, fun n h => ?_⟩, fun i j hij _ hj => ?_⟩,
    witness_sequencer_invariant.2, by decide⟩
  · have : isBusy (endRun.state (n + 1)) = false := rfl
    rw [h (n + 1) (Nat.le_succ n)] at this
    cases this
  · cases j with
    | zero => omega
    | succ j => cases hj

/-- R243: with nothing left for HOST to issue that run ends at its second state, the first in which `SEQ` is `IDLE`. -/
theorem test_run_ends : endRun.EndsAt (fun _ _ => none) 1 := by
  refine ⟨⟨rfl, rfl, rfl⟩, fun m hm h => ?_⟩
  have hm : m = 0 := by omega
  subst hm
  exact absurd h.idle (by decide)

/-- R244: after reset and with nothing issued, no result is ever reported. -/
theorem test_nothing_issued :
    Holds (fun _ => True) (fun _ _ => none) (fun s => s = State.reset) (fun o => o.result = .none) :=
  Holds.of_idle _ _ _ (fun _ h => h ▸ ⟨rfl, rfl, rfl, rfl⟩)

end Sys2Proof.Machine
end

/-! PROOFS. The guard every instruction begins with, and the step as the run of the decoded instruction (00_scope.md R6,
R10). -/

namespace Sys2Proof.Machine

open Sys2Proof

/-- Every instruction is one next state behind the guard on `FAULT` (R45, R205): a fault that it raises itself is written
into that state (log entry 4). -/
theorem exec_eq_live_next (i : Instr) (s : State) : ∃ t, exec i s = live s (.next t) := by
  cases i <;> exact ⟨_, rfl⟩

/-- The guard, once passed, passes again. -/
@[simp] theorem live_live (s : State) (act : Host.Outcome State Fault Refusal) : live s (live s act) = live s act := by
  cases hf : s.fault <;> simp [live, hf]

/-- An agent's guard adds nothing to the guard of the instruction it runs, in a faulted state too. -/
@[simp] theorem live_exec (i : Instr) (s : State) : live s (exec i s) = exec i s := by
  obtain ⟨t, ht⟩ := exec_eq_live_next i s
  rw [ht, live_live]

/-- The step is that of the agent whose turn it is (R6). -/
theorem step_eq_agentStep {s : State} {turn : Turn} (h : nextTurn s = turn) : step s = agentStep turn (takeTurn s) :=
  h ▸ rfl

/-- The ENGINE runs the micro-state that `SEQ` decodes to (R88). -/
theorem engineStep_of_decode {s : State} {i : Instr} (h : decode (.seq s.seq) = .ok i) : engineStep s = exec i s := by
  simp only [engineStep, h, live_exec]

/-- A legal command word runs its command (R80). -/
theorem issue_of_decode {v : Word} {i : Instr} (h : decode (.cmd v) = .ok i) (s : State) : issue v s = exec i s := by
  simp only [issue, h]

/-- HOST's write to `CMD` issues the word it writes (R62). -/
theorem hostStep_writeCmd (v : Word) (s : State) : hostStep (.write 0x000 4 v) s = live s (issue v s) := rfl

/-- The turn taken off is the agenda's head, or a draw where the agenda is empty (log entry 1). -/
theorem takeTurn_eq (s : State) :
    takeTurn s = { s with agenda := s.agenda.tail, draws := s.draws + (if s.agenda = [] then 1 else 0) } := by
  simp only [takeTurn, List.isEmpty_iff]

/-- Settles O28: without a fault the guard lets through the instruction's one next state. -/
theorem noInstructionStopsWithoutAFault : Obligations.NoInstructionStopsWithoutAFault := by
  intro i s hf
  obtain ⟨t, ht⟩ := exec_eq_live_next i s
  exact ⟨t, ht.trans (live_safe hf _)⟩

/-- Settles O29: the agent of the turn decodes and runs, and its own guard is absorbed by the instruction's. -/
theorem stepRunsTheDecodedInstruction : Obligations.StepRunsTheDecodedInstruction := by
  intro s
  refine ⟨fun i hturn hi => ?engine, fun v i hturn hi => ?command, fun access hturn => ?access, takeTurn_eq s⟩
  case engine => exact (step_eq_agentStep hturn).trans (engineStep_of_decode hi)
  case command =>
    calc step s = hostStep (.write 0x000 4 v) (takeTurn s) := step_eq_agentStep hturn
      _ = live (takeTurn s) (issue v (takeTurn s)) := hostStep_writeCmd v _
      _ = exec i (takeTurn s) := by rw [issue_of_decode hi, live_exec]
  case access => exact step_eq_agentStep hturn

end Sys2Proof.Machine


/-! PROOFS. The sequencer invariant and the codes the registers hold: every step keeps them (R21, R25, R30, R49). -/

namespace Sys2Proof.Machine

open Sys2Proof

/-- What the invariants of R49 say of a state whose `SEQ` holds `c`, one clause per row of R21. -/
def AtCode (s : State) (c : BitVec 4) : Prop :=
  match c.toNat with
  | 0 => s.crErrie = false ∧ s.outcome = .none
  | 1 | 2 | 3 | 4 | 5 =>
    s.idx = 0 ∧ s.outcome = .none ∧ (s.ph = .W → s.reqWlen.toNat = 0 → s.reqRlen.toNat = 0) ∧
      (s.ph = .R → 1 ≤ s.reqRlen.toNat)
  | 6 | 7 => s.ph = .W ∧ s.idx.toNat < s.reqWlen.toNat ∧ s.outcome = .none
  | 8 | 9 | 10 => s.ph = .R ∧ s.idx.toNat < s.reqRlen.toNat ∧ s.outcome = .none
  | 11 => s.ph = .R ∧ s.idx.toNat + 1 = s.reqRlen.toNat ∧ 2 ≤ s.reqRlen.toNat ∧ s.outcome = .none
  | 12 | 13 => s.outcome ≠ .none ∧ s.outcome.isOutcome = true ∧ (s.ph = .R → 1 ≤ s.reqRlen.toNat)
  | _ => False

/-- The bounds of R27 and R39, which no micro-state enters into. -/
structure Bounded (s : State) : Prop where
  wlen : s.reqWlen.toNat ≤ Config.maxWrite
  rlen : s.reqRlen.toNat ≤ Config.maxRead
  speed : s.hz.toNat ≤ Config.maxHz

/-- A 4-bit code is one of R21's fourteen, or 14 or 15. -/
theorem seq_cases (c : BitVec 4) :
    c = 0 ∨ c = 1 ∨ c = 2 ∨ c = 3 ∨ c = 4 ∨ c = 5 ∨ c = 6 ∨ c = 7 ∨ c = 8 ∨ c = 9 ∨ c = 10 ∨ c = 11 ∨ c = 12 ∨
      c = 13 ∨ c = 14 ∨ c = 15 := by
  revert c
  decide

/-- The sequencer invariant, read off at the micro-state that `SEQ` holds, code by code. -/
theorem SequencerInv.at_code {s : State} {c : BitVec 4} (h : SequencerInv s) (e : s.seq = c) : AtCode s c := by
  subst e
  obtain ⟨code, _, _, _, quiet, header, writing, reading, lastByte, stopping, outcome, readPhase⟩ := h
  rcases seq_cases s.seq with e | e | e | e | e | e | e | e | e | e | e | e | e | e | e | e <;>
    simp_all [AtCode]

/-- And back: the bounds and the clause of the micro-state make the invariant. -/
theorem SequencerInv.of_at_code {s : State} (hb : Bounded s) (h : AtCode s s.seq) : SequencerInv s := by
  obtain ⟨wlen, rlen, speed⟩ := hb
  rcases seq_cases s.seq with e | e | e | e | e | e | e | e | e | e | e | e | e | e | e | e <;>
    (constructor <;> simp_all [AtCode]) <;> omega

/-- The fields the sequencer invariant reads, but for `HZ` and `CR_ERRIE`, of which it asks only a bound. -/
def sequencerView (s : State) : BitVec 4 × Phase × BitVec 8 × ResCode × BitVec 8 × BitVec 8 :=
  (s.seq, s.ph, s.idx, s.outcome, s.reqWlen, s.reqRlen)

/-- The sequencer invariant depends on no other field. -/
theorem SequencerInv.of_view {s t : State} (h : SequencerInv s) (hv : sequencerView t = sequencerView s)
    (hz : t.hz.toNat ≤ Config.maxHz) (hq : t.crErrie = true → s.crErrie = true) : SequencerInv t := by
  obtain ⟨code, wlen, rlen, _, quiet, header, writing, reading, lastByte, stopping, outcome, readPhase⟩ := h
  simp only [sequencerView, Prod.mk.injEq] at hv
  obtain ⟨eseq, eph, eidx, eout, ew, er⟩ := hv
  have quiet' : s.seq = Seq.idle → t.crErrie = false := fun h0 => by
    have := mt hq
    simp_all
  constructor <;> simp_all

theorem SequencerInv.bounded {s : State} (h : SequencerInv s) : Bounded s := ⟨h.wlen, h.rlen, h.speed⟩

/-- A transaction that ends with an outcome goes to DO_STOP (R103). -/
theorem SequencerInv.at_finish {s t : State} (h : SequencerInv s) (hs : s.seq ≠ 0) {code : ResCode}
    (hc : code.isOutcome = true) (hp : t.ph = s.ph) (hr : t.reqRlen = s.reqRlen) :
    AtCode (finish code t) Seq.doStop :=
  ⟨fun e : code = .none => by simp [e, ResCode.isOutcome] at hc, hc, fun e => hr ▸ h.readPhase (hp ▸ e) hs⟩

/-- No move changes the request or the configuration. -/
theorem Move.request_eq {s t : State} (m : Move s t) :
    t.reqWlen = s.reqWlen ∧ t.reqRlen = s.reqRlen ∧ t.hz = s.hz := by
  cases m <;> exact ⟨rfl, rfl, rfl⟩

theorem Bounded.of_move {s t : State} (h : Bounded s) (m : Move s t) : Bounded t := by
  obtain ⟨ew, er, ez⟩ := m.request_eq
  exact ⟨ew ▸ h.wlen, er ▸ h.rlen, ez ▸ h.speed⟩

/-- While a byte of a request is awaited, `IDX` does not wrap. -/
theorem idx_succ {i : BitVec 8} {n : BitVec 8} (h : i.toNat < n.toNat) : (i + 1).toNat = i.toNat + 1 := by
  have := n.isLt
  rw [BitVec.toNat_add]
  exact Nat.mod_eq_of_lt (show i.toNat + 1 < 256 by omega)

/-- Every move leads to the clause of its target (R49, R126). -/
theorem Move.atCode_target {s t : State} (m : Move s t) (h : SequencerInv s) : AtCode t t.seq := by
  cases m with
  | idle e => exact h.at_code rfl
  | stay e _ => exact h.at_code rfl
  | timeout e _ => exact h.at_finish (fun hi => by simp [hi] at e) rfl rfl rfl
  | free e => exact h.at_code e
  | start e => exact h.at_code e
  | started e => exact h.at_code e
  | address e => exact h.at_code e
  | addressNack e => exact h.at_finish (fun hi => by simp [hi] at e) rfl rfl rfl
  | probed e => exact h.at_finish (fun hi => by simp [hi] at e) rfl rfl rfl
  | toWrite e hp hw =>
    obtain ⟨_, ho, _⟩ := h.at_code e
    exact ⟨hp, hw, ho⟩
  | toRead e hp =>
    obtain ⟨hi, ho, _, hr⟩ := h.at_code e
    exact ⟨hp, (congrArg BitVec.toNat hi).trans_lt (hr hp), ho⟩
  | unwritten e => exact h.at_code rfl
  | transmit e => exact h.at_code e
  | dataNack e => exact h.at_finish (fun hi => by simp [hi] at e) rfl rfl rfl
  | nextByte e hi =>
    obtain ⟨hp, hlt, ho⟩ := h.at_code e
    exact ⟨hp, (idx_succ hlt).symm ▸ hi, ho⟩
  | restart e _ hr =>
    obtain ⟨_, _, ho⟩ := h.at_code e
    exact ⟨rfl, ho, nofun, fun _ => hr⟩
  | written e => exact h.at_finish (fun hi => by simp [hi] at e) rfl rfl rfl
  | ackSetup e =>
    obtain ⟨hp, hlt, ho⟩ := h.at_code e
    exact ⟨hp, Nat.zero_lt_of_lt hlt, ho⟩
  | ready e => exact h.at_code e
  | lastByte e => exact h.at_finish (fun hi => by simp [hi] at e) rfl rfl rfl
  | lastButOne e hi =>
    obtain ⟨hp, hlt, ho⟩ := h.at_code e
    exact ⟨hp, hi, show 2 ≤ s.reqRlen.toNat by have := idx_succ hlt; omega, ho⟩
  | earlierByte e hi hj =>
    obtain ⟨hp, hlt, ho⟩ := h.at_code e
    have := idx_succ hlt
    exact ⟨hp, show (s.idx + 1).toNat < s.reqRlen.toNat by omega, ho⟩
  | ackOff e =>
    obtain ⟨hp, hi, _, ho⟩ := h.at_code e
    exact ⟨hp, show s.idx.toNat < s.reqRlen.toNat by omega, ho⟩
  | stop e => exact h.at_code e
  | post e => exact ⟨rfl, rfl⟩

theorem idle_of_not_busy {s : State} (hb : isBusy s = false) : s.seq = 0 := by simpa [isBusy] using hb

theorem firstPhase_eq_W {wl rl : BitVec 8} : firstPhase wl rl = .W ↔ 0 < wl.toNat ∨ rl.toNat = 0 := by
  simp only [firstPhase]
  split <;> simp_all

theorem firstPhase_eq_R {wl rl : BitVec 8} : firstPhase wl rl = .R ↔ wl.toNat = 0 ∧ 1 ≤ rl.toNat := by
  simp only [firstPhase]
  split <;> simp <;> omega

/-- An accepted EXECUTE stands at the first micro-state of its phase (R101, R106). -/
theorem atCode_accept (a : Addr) (wl rl : BitVec 8) (s : State) :
    AtCode (acceptExecute a wl rl s) Seq.waitFree := by
  refine ⟨rfl, rfl, fun hp hw => ?_, fun hp => (firstPhase_eq_R.mp hp).2⟩
  exact (firstPhase_eq_W.mp hp).resolve_left (Nat.not_lt.mpr hw.le)

/-- The sequencer invariant is kept by every effect of a step. -/
theorem sequencerInv_kept : Kept SequencerInv where
  env _ _ _ _ _ h := h.of_view rfl h.speed id
  raised _ _ h := h.of_view rfl h.speed id
  read _ _ h := h.of_view rfl h.speed id
  speedArg _ _ h := h.of_view rfl h.speed id
  bufferWrite _ _ _ _ _ h := h.of_view rfl h.speed id
  tick _ h := h.of_view rfl h.speed id
  capture _ _ _ h := h.of_view rfl h.speed nofun
  rejected _ _ h := h.of_view rfl h.speed id
  accepted a wl rl s _ hw hr h := .of_at_code ⟨hw, hr, h.speed⟩ (atCode_accept a wl rl s)
  pins _ _ _ h := h.of_view rfl h.speed nofun
  tooFast _ _ h := h.of_view rfl h.speed id
  speed _ _ hz h := h.of_view rfl hz nofun
  move _ _ m h := .of_at_code (h.bounded.of_move m) (m.atCode_target h)

/-- The codes invariant depends on three registers. -/
theorem CodesInv.of_eq {s t : State} (h : CodesInv s) (hv : (t.seq, t.result, t.resp) = (s.seq, s.result, s.resp)) :
    CodesInv t := by
  simp only [Prod.mk.injEq] at hv
  obtain ⟨eseq, eres, eresp⟩ := hv
  exact ⟨eres ▸ h.result, fun hs => eres ▸ h.running (eseq ▸ hs), eresp ▸ h.resp⟩

/-- A move leaves `RESP` as it is, and either it leaves `RESULT` as it is, and `SEQ` at `IDLE` if it was there, or it
posts the outcome (R122). -/
theorem Move.codes_eq {s t : State} (m : Move s t) :
    t.resp = s.resp ∧
      ((t.result = s.result ∧ (s.seq = 0 → t.seq = 0)) ∨ (t.seq = 0 ∧ t.result = s.outcome)) := by
  cases m with
  | idle => exact ⟨rfl, .inl ⟨rfl, id⟩⟩
  | post => exact ⟨rfl, .inr ⟨rfl, rfl⟩⟩
  | _ => exact ⟨rfl, .inl ⟨rfl, fun h0 => by simp_all⟩⟩

/-- A move keeps the codes: a result that is posted is an outcome (R25), and none is posted before (R30). -/
theorem CodesInv.of_move {s t : State} (hc : CodesInv s) (hs : SequencerInv s) (m : Move s t) : CodesInv t := by
  obtain ⟨eresp, ⟨eres, hidle⟩ | ⟨h0, eres⟩⟩ := m.codes_eq
  · exact ⟨eres ▸ hc.result, fun ht => eres.trans (hc.running (mt hidle ht)), eresp ▸ hc.resp⟩
  · exact ⟨eres ▸ (em (s.outcome = .none)).imp_right hs.outcome, fun ht => absurd h0 ht, eresp ▸ hc.resp⟩

/-- The codes the registers hold are kept together with the sequencer invariant, which bounds `OUTCOME`. -/
theorem codesInv_kept : Kept (fun s => SequencerInv s ∧ CodesInv s) where
  env s a b c d h := ⟨sequencerInv_kept.env s a b c d h.1, h.2.of_eq rfl⟩
  raised r s h := ⟨sequencerInv_kept.raised r s h.1, h.2.of_eq rfl⟩
  read v s h := ⟨sequencerInv_kept.read v s h.1, h.2.of_eq rfl⟩
  speedArg v s h := ⟨sequencerInv_kept.speedArg v s h.1, h.2.of_eq rfl⟩
  bufferWrite i b s hb hi h := ⟨sequencerInv_kept.bufferWrite i b s hb hi h.1, h.2.of_eq rfl⟩
  tick s h := ⟨sequencerInv_kept.tick s h.1, h.2.of_eq rfl⟩
  capture b s hc h := ⟨sequencerInv_kept.capture b s hc h.1, h.2.of_eq rfl⟩
  rejected s hb h := ⟨sequencerInv_kept.rejected s hb h.1, h.2.result, h.2.running, by simp⟩
  accepted a wl rl s hb hw hr h :=
    ⟨sequencerInv_kept.accepted a wl rl s hb hw hr h.1, .inl rfl, fun _ => rfl, by simp [acceptExecute]⟩
  pins p s hb h := ⟨sequencerInv_kept.pins p s hb h.1, h.2.result, h.2.running, by simp⟩
  tooFast s hb h := ⟨sequencerInv_kept.tooFast s hb h.1, h.2.result, h.2.running, by simp⟩
  speed s hb hz h := ⟨sequencerInv_kept.speed s hb hz h.1, h.2.result, h.2.running, by simp⟩
  move s t m h := ⟨sequencerInv_kept.move s t m h.1, h.2.of_move h.1 m⟩

/-- Settles O44: every effect of a step keeps the sequencer invariant, and with it the codes. -/
theorem stepKeepsTheSequencerInvariant : Obligations.StepKeepsTheSequencerInvariant := fun _ _ hs hstep =>
  ⟨sequencerInv_kept.step hs hstep, fun hc => (codesInv_kept.step ⟨hs, hc⟩ hstep).2⟩

end Sys2Proof.Machine

/-! PROOFS. The bytes of a transaction: that every step keeps the buffers and the bus in agreement (R29, R67, R123
item 5). -/

namespace Sys2Proof.Machine

open Sys2Proof

/-- The data bytes on the bus are the write buffer's, in index order (R115). -/
def SentFromBuffer (s : State) : Prop := ∀ k b, (sent s.hist)[k]? = some b → Memory.read s.wbuf k = some b

/-- The read buffer holds the received bytes in order of reception, and nothing else (R119). -/
def BufferHoldsReceived (s : State) : Prop := ∀ k, Memory.read s.rbuf k = (received s.hist)[k]?

/-- So many bytes have been sent, and so many received. -/
def Moved (s : State) (out inn : Nat) : Prop := (sent s.hist).length = out ∧ (received s.hist).length = inn

/-- Every requested byte was transferred (R123 item 5). -/
def Complete (s : State) : Prop := Moved s s.reqWlen.toNat s.reqRlen.toNat ∧ BufferHoldsReceived s

/-- What the transfer invariant says of a state of the sequencer whose `SEQ` holds `c`, one clause per row of R21. -/
def TransferAt (s : State) (c : BitVec 4) : Prop :=
  match c.toNat with
  | 0 => (s.result = .ok → Complete s) ∧ (s.result ≠ .ok → s.rbuf = [])
  | 1 | 2 | 3 | 4 | 5 =>
    SentFromBuffer s ∧ BufferHoldsReceived s ∧ (s.ph = .W → Moved s 0 0) ∧ (s.ph = .R → Moved s s.reqWlen.toNat 0)
  | 6 => SentFromBuffer s ∧ BufferHoldsReceived s ∧ Moved s s.idx.toNat 0
  | 7 => SentFromBuffer s ∧ BufferHoldsReceived s ∧ Moved s (s.idx.toNat + 1) 0
  | 8 => SentFromBuffer s ∧ BufferHoldsReceived s ∧ Moved s s.reqWlen.toNat 0
  | 9 | 10 | 11 => SentFromBuffer s ∧ BufferHoldsReceived s ∧ Moved s s.reqWlen.toNat s.idx.toNat
  | 12 | 13 => SentFromBuffer s ∧ (s.outcome = .ok → Complete s)
  | _ => False

/-- The transfer invariant, read off at the micro-state that `SEQ` holds, code by code. -/
theorem TransferInv.at_code {s : State} {c : BitVec 4} (h : TransferInv s) (hq : SequencerInv s) (e : s.seq = c) :
    TransferAt s c := by
  subst e
  have hc := hq.at_code rfl
  obtain ⟨sentBytes, receivedBytes, beforeWrite, transmit, transmitted, beforeRead, inRead, succeeded, failed⟩ := h
  rcases seq_cases s.seq with e | e | e | e | e | e | e | e | e | e | e | e | e | e | e | e <;>
    simp_all [AtCode, TransferAt, SentFromBuffer, BufferHoldsReceived, Moved, Complete]

/-- And back: under the sequencer invariant the clause of the micro-state makes the whole invariant. -/
theorem TransferInv.of_at_code {s : State} (hq : SequencerInv s) (h : TransferAt s s.seq) : TransferInv s := by
  have hc := hq.at_code rfl
  rcases seq_cases s.seq with e | e | e | e | e | e | e | e | e | e | e | e | e | e | e | e <;>
    constructor <;> simp_all [AtCode, TransferAt, SentFromBuffer, BufferHoldsReceived, Moved, Complete]

/-- The fields the transfer invariant reads, and of `HIST` the bytes. -/
def transferView (s : State) : (BitVec 4 × Phase × BitVec 8 × ResCode × ResCode × BitVec 8 × BitVec 8) ×
    (Memory × Memory × List Byte × List Byte) :=
  ((s.seq, s.ph, s.idx, s.outcome, s.result, s.reqWlen, s.reqRlen),
    (s.wbuf, s.rbuf, sent s.hist, received s.hist))

/-- The transfer invariant depends on nothing else. -/
theorem TransferInv.of_view {s t : State} (h : TransferInv s) (hv : transferView t = transferView s) :
    TransferInv t := by
  obtain ⟨sentBytes, receivedBytes, beforeWrite, transmit, transmitted, beforeRead, inRead, succeeded, failed⟩ := h
  simp only [transferView, Prod.mk.injEq] at hv
  obtain ⟨⟨eseq, eph, eidx, eout, eres, ew, er⟩, ewbuf, erbuf, esent, erec⟩ := hv
  constructor <;> simp only [eseq, eph, eidx, eout, eres, ew, er, ewbuf, erbuf, esent, erec] <;> assumption

/-- An event that carries no byte and opens no transaction. -/
def Event.isControl (e : Event) : Prop := e.isAccept = false ∧ e.rxByte? = none ∧ e.dataByte? = none

/-- Such an event moves no byte. -/
theorem TransferInv.emit {s : State} (h : TransferInv s) {e : Event} (he : e.isControl) :
    TransferInv (Machine.emit e s) := by
  obtain ⟨ha, hr, hd⟩ := he
  exact h.of_view (by simp [transferView, ha, hr, hd])

/-- A status read moves no byte. -/
theorem TransferInv.sampleSR {s : State} (h : TransferInv s) : TransferInv (Machine.sampleSR s) :=
  h.of_view (by simp [transferView, Event.isAccept, Event.rxByte?, Event.dataByte?])

/-- A transaction that fails need only have sent what the buffer holds. -/
theorem TransferInv.at_fail {s : State} (h : TransferInv s) (hs : s.seq ≠ 0) {code : ResCode} (hc : code ≠ .ok) :
    TransferAt (finish code s) Seq.doStop :=
  ⟨h.sentBytes hs, fun e => absurd e hc⟩

/-- The byte at the next index may be sent next. -/
theorem SentFromBuffer.transmit {s : State} (h : SentFromBuffer s) {b : Byte}
    (hb : Memory.read s.wbuf (sent s.hist).length = some b) : SentFromBuffer (emit (.tx .data b) s) := by
  intro k b' hk
  have hsent : sent (emit (.tx .data b) s).hist = sent s.hist ++ [b] := by
    simp [Event.isAccept, Event.dataByte?]
  rw [hsent, List.getElem?_append] at hk
  split at hk
  · exact h k b' hk
  · next hlt =>
    obtain ⟨h0, rfl⟩ : k - (sent s.hist).length = 0 ∧ b = b' := by simpa [List.getElem?_singleton] using hk
    rwa [show k = (sent s.hist).length by omega]

/-- DO_RX_READ takes the read phase's clause to the next index: the byte goes to `RBUF[IDX]` and to the end of what has
been received (R119). -/
theorem TransferInv.receive {s : State} (h : TransferInv s) (hq : SequencerInv s) (e : s.seq = Seq.doRxRead) :
    let t := { sampleDR s with
      rbuf := Memory.store Config.maxRead s.rbuf s.idx.toNat (nextDR s), idx := s.idx + 1 }
    SentFromBuffer t ∧ BufferHoldsReceived t ∧ Moved t t.reqWlen.toNat t.idx.toNat := by
  obtain ⟨hsent, hbuf, hout, hin⟩ := h.at_code hq e
  obtain ⟨_, hlt, _⟩ := hq.at_code e
  have hcell : s.idx.toNat < Config.maxRead := hlt.trans_le hq.rlen
  have esent : sent (sampleDR s).hist = sent s.hist := by simp [Event.isAccept, Event.dataByte?]
  have erec : received (sampleDR s).hist = received s.hist ++ [nextDR s] := by
    simp [Event.isAccept, Event.rxByte?]
  refine ⟨fun k b hk => hsent k b (esent ▸ hk), fun k => ?_, (congrArg List.length esent).trans hout, ?_⟩
  · show Memory.read (Memory.store Config.maxRead s.rbuf s.idx.toNat (nextDR s)) k = (received (sampleDR s).hist)[k]?
    rw [erec, read_store, hbuf k]
    rcases Nat.lt_trichotomy k s.idx.toNat with hk | rfl | hk
    · rw [if_neg (by omega), List.getElem?_append_left (by omega)]
    · rw [if_pos ⟨rfl, hcell⟩, ← hin, List.getElem?_concat_length]
    · rw [if_neg (by omega), List.getElem?_eq_none (by omega), List.getElem?_eq_none (by simp; omega)]
  · show (received (sampleDR s).hist).length = (s.idx + 1).toNat
    rw [erec, idx_succ hlt, List.length_append, hin, List.length_singleton]

/-- A write of the write buffer by HOST comes between transactions, where nothing is said of it (R63). -/
theorem TransferInv.bufferWrite {s : State} (h : TransferInv s) (hq : SequencerInv s) (hb : isBusy s = false)
    (m : Memory) : TransferAt { s with wbuf := m } s.seq := by
  have hidle := h.at_code hq (idle_of_not_busy hb)
  rw [idle_of_not_busy hb]
  exact hidle

/-- Every move leads to the clause of its target. -/
theorem Move.transferAt_target {s t : State} (m : Move s t) (hq : SequencerInv s) (h : TransferInv s) :
    TransferAt t t.seq := by
  have polled : TransferInv (sampleSR s) := h.sampleSR
  have hq' : SequencerInv (sampleSR s) := hq.of_view rfl hq.speed id
  cases m with
  | idle e => exact h.at_code hq rfl
  | stay e _ => exact polled.at_code hq' rfl
  | timeout e _ => exact polled.at_fail (fun hi => by simp_all) nofun
  | free e => exact polled.at_code hq' e
  | start e => exact (h.emit ⟨rfl, rfl, rfl⟩).at_code (hq.of_view rfl hq.speed id) e
  | started e => exact polled.at_code hq' e
  | address e => exact (h.emit ⟨rfl, rfl, rfl⟩).at_code (hq.of_view rfl hq.speed id) e
  | addressNack e => exact polled.at_fail (fun hi => by simp_all) nofun
  | probed e hp hw =>
    obtain ⟨hsent, hbuf, hW, _⟩ := polled.at_code hq' e
    obtain ⟨_, _, hr, _⟩ := hq.at_code e
    obtain ⟨hout, hin⟩ := hW hp
    exact ⟨hsent, fun _ => ⟨⟨hout.trans hw.symm, hin.trans (hr hp hw).symm⟩, hbuf⟩⟩
  | toWrite e hp _ =>
    obtain ⟨hsent, hbuf, hW, _⟩ := polled.at_code hq' e
    exact ⟨hsent, hbuf, hW hp⟩
  | toRead e hp =>
    obtain ⟨hsent, hbuf, _, hR⟩ := polled.at_code hq' e
    exact ⟨hsent, hbuf, hR hp⟩
  | unwritten e => exact (h.of_view rfl : TransferInv (raise _ s)).at_code (hq.of_view rfl hq.speed id) rfl
  | transmit e b hb =>
    obtain ⟨hsent, hbuf, hout, hin⟩ := h.at_code hq e
    have hread : Memory.read s.wbuf (sent s.hist).length = some b := hout ▸ (cell_eq_some.mp hb).2
    refine ⟨hsent.transmit hread, ?_, ?_, ?_⟩
    · simpa [BufferHoldsReceived, Event.isAccept, Event.rxByte?] using hbuf
    · simpa [Event.isAccept, Event.dataByte?] using hout
    · simpa [Event.isAccept, Event.rxByte?] using hin
  | dataNack e => exact polled.at_fail (fun hi => by simp_all) nofun
  | nextByte e hi =>
    obtain ⟨hsent, hbuf, hm⟩ := polled.at_code hq' e
    obtain ⟨_, hlt, _⟩ := hq.at_code e
    exact ⟨hsent, hbuf, (idx_succ hlt).symm ▸ hm⟩
  | restart e hi _ =>
    obtain ⟨hsent, hbuf, hout, hin⟩ := polled.at_code hq' e
    obtain ⟨_, hlt, _⟩ := hq.at_code e
    exact ⟨hsent, hbuf, nofun, fun _ => ⟨hout.trans (Nat.le_antisymm hlt hi), hin⟩⟩
  | written e hi hr =>
    obtain ⟨hsent, hbuf, hout, hin⟩ := polled.at_code hq' e
    obtain ⟨_, hlt, _⟩ := hq.at_code e
    exact ⟨hsent, fun _ => ⟨⟨hout.trans (Nat.le_antisymm hlt hi), hin.trans hr.symm⟩, hbuf⟩⟩
  | ackSetup e => exact (h.emit ⟨rfl, rfl, rfl⟩).at_code (hq.of_view rfl hq.speed id) e
  | ready e => exact polled.at_code hq' e
  | lastByte e hi =>
    obtain ⟨hsent, hbuf, hm⟩ := h.receive hq e
    exact ⟨hsent, fun _ => ⟨hi ▸ hm, hbuf⟩⟩
  | lastButOne e => exact h.receive hq e
  | earlierByte e => exact h.receive hq e
  | ackOff e => exact (h.emit ⟨rfl, rfl, rfl⟩).at_code (hq.of_view rfl hq.speed id) e
  | stop e => exact (h.emit ⟨rfl, rfl, rfl⟩).at_code (hq.of_view rfl hq.speed id) e
  | post e =>
    obtain ⟨_, hok⟩ := h.at_code hq e
    refine ⟨fun ho => ?_, fun ho => if_neg ho⟩
    obtain ⟨hm, hbuf⟩ := hok ho
    simpa [Complete, Moved, BufferHoldsReceived, Event.isAccept, Event.rxByte?, Event.dataByte?,
      show s.outcome = .ok from ho] using And.intro hm hbuf

/-- An accepted EXECUTE has moved nothing yet (R101). -/
theorem transferAt_accept (a : Addr) (wl rl : BitVec 8) (s : State) :
    TransferAt (acceptExecute a wl rl s) Seq.waitFree := by
  have hsent : sent (acceptExecute a wl rl s).hist = [] := by simp [acceptExecute, Event.isAccept, Event.dataByte?]
  have hrec : received (acceptExecute a wl rl s).hist = [] := by
    simp [acceptExecute, Event.isAccept, Event.rxByte?]
  refine ⟨?_, ?_, fun _ => ⟨by rw [hsent]; rfl, by rw [hrec]; rfl⟩, fun hp => ⟨?_, by rw [hrec]; rfl⟩⟩
  · simp [SentFromBuffer, hsent]
  · intro k
    rw [hrec, List.getElem?_nil]
    rfl
  · rw [hsent]
    exact (firstPhase_eq_R.mp hp).1.symm

/-- The transfer invariant is kept by every effect of a step, together with the sequencer invariant. -/
theorem transferInv_kept : Kept (fun s => SequencerInv s ∧ TransferInv s) where
  env s a b c d h := ⟨sequencerInv_kept.env s a b c d h.1, h.2.of_view rfl⟩
  raised r s h := ⟨sequencerInv_kept.raised r s h.1, h.2.of_view rfl⟩
  read v s h := ⟨sequencerInv_kept.read v s h.1, h.2.of_view rfl⟩
  speedArg v s h := ⟨sequencerInv_kept.speedArg v s h.1, h.2.of_view rfl⟩
  bufferWrite i b s hb hi h :=
    have hq := sequencerInv_kept.bufferWrite i b s hb hi h.1
    ⟨hq, .of_at_code hq (h.2.bufferWrite h.1 hb _)⟩
  tick s h := ⟨sequencerInv_kept.tick s h.1, h.2.of_view rfl⟩
  capture b s hc h := ⟨sequencerInv_kept.capture b s hc h.1, h.2.of_view (by
    simp [transferView, Event.isAccept, Event.rxByte?, Event.dataByte?])⟩
  rejected s hb h := ⟨sequencerInv_kept.rejected s hb h.1, h.2.of_view rfl⟩
  accepted a wl rl s hb hw hr h :=
    have hq := sequencerInv_kept.accepted a wl rl s hb hw hr h.1
    ⟨hq, .of_at_code hq (transferAt_accept a wl rl s)⟩
  pins p s hb h := ⟨sequencerInv_kept.pins p s hb h.1, h.2.of_view (by
    simp [transferView, Event.isAccept, Event.rxByte?, Event.dataByte?])⟩
  tooFast s hb h := ⟨sequencerInv_kept.tooFast s hb h.1, h.2.of_view rfl⟩
  speed s hb hz h := ⟨sequencerInv_kept.speed s hb hz h.1, h.2.of_view (by
    simp [transferView, Event.isAccept, Event.rxByte?, Event.dataByte?])⟩
  move s t m h :=
    have hq := sequencerInv_kept.move s t m h.1
    ⟨hq, .of_at_code hq (m.transferAt_target h.1 h.2)⟩

/-- Settles O50: every move of the sequencer keeps the buffers and the recorded bytes in step. -/
theorem buffersMatchTheBus : Obligations.BuffersMatchTheBus := fun _ _ hq h hstep =>
  (transferInv_kept.step ⟨hq, h⟩ hstep).2

end Sys2Proof.Machine

/-! PROOFS. The frame of an instruction: what it leaves unchanged of the faults, the configuration and the buffers, and
what follows for a step (R28, R29, R45, R158). -/

namespace Sys2Proof.Machine

open Sys2Proof

/-- What only a few named instructions change: `FAULT`, the configuration and the buffers. -/
def held (s : State) : List Reason × DutyMode × Pin × Word × Memory × Memory :=
  (s.fault, s.duty, s.pin, s.hz, s.wbuf, s.rbuf)

theorem held_eq_iff {s t : State} : held t = held s ↔
    t.fault = s.fault ∧ t.duty = s.duty ∧ t.pin = s.pin ∧ t.hz = s.hz ∧ t.wbuf = s.wbuf ∧ t.rbuf = s.rbuf := by
  simp only [held, Prod.mk.injEq]

/-- A poll changes none of it, where its success does not. -/
theorem held_poll {met : StatusWord → Bool} {advance : State → State} (h : ∀ s, held (advance s) = held s)
    (s : State) : held (poll met advance s) = held s := by
  obtain ⟨_, e⟩ | ⟨_, _, e⟩ | ⟨_, _, e⟩ := poll_cases met advance s
  · exact e ▸ h (sampleSR s)
  · exact e ▸ rfl
  · exact e ▸ rfl

/-- The same of a poll with an error test. -/
theorem held_pollOrFail {code : ResCode} {met : StatusWord → Bool} {advance : State → State}
    (h : ∀ s, held (advance s) = held s) (s : State) : held (pollOrFail code met advance s) = held s := by
  obtain ⟨_, e⟩ | ⟨_, _, e⟩ | ⟨_, _, _, e⟩ | ⟨_, _, _, e⟩ := pollOrFail_cases code met advance s
  · exact e ▸ rfl
  · exact e ▸ h (sampleSR s)
  · exact e ▸ rfl
  · exact e ▸ rfl

theorem held_goto (c : BitVec 4) (s : State) : held (goto c s) = held s := rfl

theorem held_addressAcknowledged (s : State) : held (addressAcknowledged s) = held s := by
  unfold addressAcknowledged
  split
  · split <;> rfl
  · rfl

theorem held_byteTransferred (s : State) : held (byteTransferred s) = held s := by
  unfold byteTransferred
  split
  · rfl
  · split <;> rfl

theorem held_byteReceived (s : State) : held (byteReceived s) = held s := by
  unfold byteReceived
  split
  · rfl
  · split <;> rfl

/-- What an instruction that raises no fault leaves unchanged, and what it can do to the read buffer (R101, R119, R122,
R150–R153). -/
structure Framed (i : Instr) (s t : State) : Prop where
  fault : t.fault = s.fault
  duty : t.duty = s.duty
  config : isBusy s = true → t.pin = s.pin ∧ t.hz = s.hz
  wbuf : t.wbuf = s.wbuf
  rbuf : t.rbuf = s.rbuf ∨
    (i = .doRxRead ∧ t.rbuf = Memory.store Config.maxRead s.rbuf s.idx.toNat (nextDR s)) ∨
    (((∃ a wl rl, i = .execute a wl rl) ∨ i = .doErrOff) ∧ t.rbuf = [])

/-- An instruction that changes nothing of what is held. -/
theorem Framed.of_held {i : Instr} {s t : State} (h : held t = held s) : Framed i s t := by
  obtain ⟨hf, hd, hp, hz, hw, hr⟩ := held_eq_iff.mp h
  exact ⟨hf, hd, fun _ => ⟨hp, hz⟩, hw, .inl hr⟩

/-- DO_RX_READ stores the received byte and changes nothing else of what is held (R119). -/
theorem doRxRead_held {s t : State} (h : exec .doRxRead s = .next t) :
    held t = held { s with rbuf := Memory.store Config.maxRead s.rbuf s.idx.toNat (nextDR s) } := by
  obtain ⟨_, rfl⟩ := execDoRxRead_next h
  exact held_byteReceived _

/-- An instruction has raised a fault and changed nothing else, or it is framed. -/
theorem exec_framed {i : Instr} {s t : State} (h : exec i s = .next t) :
    (∃ r, t = raise r s) ∨ Framed i s t := by
  cases i with
  | execute a wl rl =>
    obtain ⟨_, rfl⟩ := execExecute_next h
    split
    · exact .inr (.of_held rfl)
    · next hb => exact .inr ⟨rfl, rfl, fun hb' => absurd hb' hb, rfl, .inr (.inr ⟨.inl ⟨a, wl, rl, rfl⟩, rfl⟩)⟩
  | selectPins p =>
    obtain ⟨_, rfl⟩ := execSelectPins_next h
    split
    · exact .inl ⟨_, rfl⟩
    · next hb => exact .inr ⟨rfl, rfl, fun hb' => absurd hb' hb, rfl, .inl rfl⟩
  | setSpeed =>
    obtain ⟨_, rfl⟩ := execSetSpeed_next h
    split
    · exact .inl ⟨_, rfl⟩
    · next hb =>
      split
      · exact .inr (.of_held rfl)
      · exact .inr ⟨rfl, rfl, fun hb' => absurd hb' hb, rfl, .inl rfl⟩
  | idle =>
    obtain ⟨_, rfl⟩ := execIdle_next h
    exact .inr (.of_held rfl)
  | waitFree =>
    obtain ⟨_, rfl⟩ := execWaitFree_next h
    exact .inr (.of_held (held_poll (held_goto _) s))
  | doStart =>
    obtain ⟨_, rfl⟩ := execDoStart_next h
    exact .inr (.of_held rfl)
  | waitSb =>
    obtain ⟨_, rfl⟩ := execWaitSb_next h
    exact .inr (.of_held (held_poll (held_goto _) s))
  | doAddr =>
    obtain ⟨_, rfl⟩ := execDoAddr_next h
    exact .inr (.of_held rfl)
  | waitAddr =>
    obtain ⟨_, rfl⟩ := execWaitAddr_next h
    exact .inr (.of_held (held_pollOrFail held_addressAcknowledged s))
  | doTx =>
    obtain ⟨_, ⟨_, rfl⟩ | ⟨_, _, rfl⟩⟩ := execDoTx_next h
    · exact .inl ⟨_, rfl⟩
    · exact .inr (.of_held rfl)
  | waitBtf =>
    obtain ⟨_, rfl⟩ := execWaitBtf_next h
    exact .inr (.of_held (held_pollOrFail held_byteTransferred s))
  | doAckSetup =>
    obtain ⟨_, rfl⟩ := execDoAckSetup_next h
    exact .inr (.of_held rfl)
  | waitRxne =>
    obtain ⟨_, rfl⟩ := execWaitRxne_next h
    exact .inr (.of_held (held_pollOrFail (held_goto _) s))
  | doRxRead =>
    obtain ⟨ef, ed, ep, ez, ew, er⟩ := held_eq_iff.mp (doRxRead_held h)
    exact .inr ⟨ef, ed, fun _ => ⟨ep, ez⟩, ew, .inr (.inl ⟨rfl, er⟩)⟩
  | doAckOff =>
    obtain ⟨_, rfl⟩ := execDoAckOff_next h
    exact .inr (.of_held rfl)
  | doStop =>
    obtain ⟨_, rfl⟩ := execDoStop_next h
    exact .inr (.of_held rfl)
  | doErrOff =>
    obtain ⟨_, rfl⟩ := execDoErrOff_next h
    refine .inr ⟨rfl, rfl, fun _ => ⟨rfl, rfl⟩, rfl, ?_⟩
    by_cases ho : s.outcome = .ok
    · exact .inl (if_pos ho)
    · exact .inr (.inr ⟨.inr rfl, if_neg ho⟩)

/-- What a step of the block can do to what is held: it raises a fault and changes nothing else, it changes nothing of
it, HOST writes the write buffer, or a framed instruction runs. -/
inductive StepFrame (s t : State) : Prop where
  | raised (r : Reason) (h : t = raise r s)
  | held (h : held t = held s)
  | bufferWrite (i : Nat) (b : Byte) (hi : i < Config.maxWrite) (h : t = { s with wbuf := Memory.write s.wbuf i b })
  | ran (i : Instr) (h : Framed i s t)

/-- Every step takes its turn off and is framed. -/
theorem step_framed {s t : State} (h : step s = .next t) : s.fault = [] ∧ StepFrame (takeTurn s) t := by
  obtain ⟨hf, h⟩ := agentStep_cases (agentStep_of_step h)
  refine ⟨hf, ?_⟩
  rcases h with ⟨r, rfl⟩ | ⟨_, rfl⟩ | ⟨_, rfl⟩ | ⟨i, b, _, hi, rfl⟩ | rfl | ⟨_, rfl⟩ | ⟨_, _, _, rfl⟩ |
    ⟨_, i, _, he⟩ | ⟨i, _, _, he⟩
  · exact .raised r rfl
  · exact .held rfl
  · exact .held rfl
  · exact .bufferWrite i b hi rfl
  · exact .held rfl
  · exact .held rfl
  · exact .held rfl
  · obtain ⟨r, hr⟩ | hfr := exec_framed he
    · exact .raised r hr
    · exact .ran i hfr
  · obtain ⟨r, hr⟩ | hfr := exec_framed he
    · exact .raised r hr
    · exact .ran i hfr

/-- Settles O43: HOST writes inside the write buffer, and a received byte is stored inside the read buffer. -/
theorem stepKeepsBuffersCanonical : Obligations.StepKeepsBuffersCanonical := by
  intro s t ⟨hw, hr⟩ hstep
  obtain ⟨_, ⟨r, rfl⟩ | ⟨h⟩ | ⟨i, b, hi, rfl⟩ | ⟨i, h⟩⟩ := step_framed hstep
  · exact ⟨hw, hr⟩
  · obtain ⟨_, _, _, _, ew, er⟩ := held_eq_iff.mp h
    exact ⟨ew ▸ hw, er ▸ hr⟩
  · exact ⟨write_wf b hw hi, hr⟩
  · refine ⟨h.wbuf ▸ hw, ?_⟩
    obtain er | ⟨_, er⟩ | ⟨_, er⟩ := h.rbuf
    · exact er ▸ hr
    · exact er ▸ store_wf _ _ hr
    · exact er ▸ wf_nil _

/-- Settles O51: while `BUSY = 1` a configuration command raises a fault. -/
theorem configurationIsHeldWhileBusy : Obligations.ConfigurationIsHeldWhileBusy := by
  intro s t hstep
  obtain ⟨_, ⟨r, rfl⟩ | ⟨h⟩ | ⟨i, b, _, rfl⟩ | ⟨i, h⟩⟩ := step_framed hstep
  · exact ⟨rfl, fun _ => ⟨rfl, rfl⟩⟩
  · obtain ⟨_, ed, ep, ez, _, _⟩ := held_eq_iff.mp h
    exact ⟨ed, fun _ => ⟨ep, ez⟩⟩
  · exact ⟨rfl, fun _ => ⟨rfl, rfl⟩⟩
  · exact ⟨h.duty, fun hb => h.config (decide_eq_true hb)⟩

/-- Settles O53: EXECUTE and DO_ERR_OFF clear the read buffer, and DO_RX_READ stores one byte. -/
theorem instructionsStoreOnlyTheReceivedByte : Obligations.InstructionsStoreOnlyTheReceivedByte := by
  intro i s t h
  refine ⟨fun a => congrArg (Memory.read · a) ?wbuf, fun hi => ?stored,
    fun hx he hr a => congrArg (Memory.read · a) ?rbuf⟩
  case wbuf =>
    obtain ⟨r, rfl⟩ | hfr := exec_framed h
    · rfl
    · exact hfr.wbuf
  case stored =>
    subst hi
    obtain ⟨_, _, _, _, _, (er : t.rbuf = Memory.store _ _ _ _)⟩ := held_eq_iff.mp (doRxRead_held h)
    refine ⟨fun hlt => ?_, fun a ha => ?_⟩
    · rw [er, read_store, if_pos ⟨rfl, hlt⟩]
    · rw [er, read_store, if_neg fun hc => ha hc.2 hc.1]
  case rbuf =>
    obtain ⟨r, rfl⟩ | hfr := exec_framed h
    · rfl
    · obtain er | ⟨hi, _⟩ | ⟨hi | hi, _⟩ := hfr.rbuf
      · exact er
      · exact absurd hi hr
      · exact absurd hi hx
      · exact absurd hi he

/-- Under a recorded reason nothing runs behind the guard (R45, R205). -/
theorem stoppedBy_of_fault {s : State} {r : Reason} {l : List Reason} (h : s.fault = r :: l)
    (act : Host.Outcome State Fault Refusal) : live s act = stoppedBy r := by
  simp only [live, h]

/-- Every agent's step begins with the guard on `FAULT`. -/
theorem agentStep_eq_live (turn : Turn) (s : State) : agentStep turn s = live s (agentStep turn s) := by
  cases turn <;> exact (live_live s _).symm

/-- Settles O34: a step that leaves a fault is the raise of one, and every later one stops at its guard. -/
theorem faultIsStickyAndQuiescent : Obligations.FaultIsStickyAndQuiescent := by
  refine ⟨rfl, fun s t hstep ht => ?faulting, fun s r l h => ?faulted⟩
  case faulting =>
    obtain ⟨hf, ⟨r, rfl⟩ | ⟨h⟩ | ⟨i, b, _, rfl⟩ | ⟨i, h⟩⟩ := step_framed hstep
    · exact ⟨r, by simp only [raise, takeTurn_fault, hf, List.insert_nil]⟩
    · exact absurd ((held_eq_iff.mp h).1.trans hf) ht
    · exact absurd hf ht
    · exact absurd (h.fault.trans hf) ht
  case faulted =>
    have hstep : step s = stoppedBy r := (agentStep_eq_live _ _).trans (stoppedBy_of_fault h _)
    refine ⟨fun i => ?_, hstep, fun t => hstep ▸ stoppedBy_ne_next r t⟩
    obtain ⟨t, ht⟩ := exec_eq_live_next i s
    exact ht.trans (stoppedBy_of_fault h _)

end Sys2Proof.Machine

/-! PROOFS. The history: every step appends to it, and none reads it (R46). -/

namespace Sys2Proof.Machine

open Sys2Proof

/-- A move of the sequencer appends to the history. -/
theorem Move.hist_grows {s t : State} (m : Move s t) : s.hist <+: t.hist := by
  cases m <;> simp

/-- Every effect of a step appends to the history, so what it began with stays there. -/
theorem histGrows_kept (h : List Event) : Kept (fun s => h <+: s.hist) where
  env _ _ _ _ _ hp := hp
  raised _ _ hp := hp
  read _ _ hp := hp
  speedArg _ _ hp := hp
  bufferWrite _ _ _ _ _ hp := hp
  tick _ hp := hp
  capture _ _ _ hp := hp.trans ⟨_, rfl⟩
  rejected _ _ hp := hp
  accepted _ _ _ _ _ _ _ hp := hp.trans ⟨_, rfl⟩
  pins _ _ _ hp := hp.trans ⟨_, rfl⟩
  tooFast _ _ hp := hp
  speed _ _ _ hp := hp.trans ⟨_, rfl⟩
  move _ _ m hp := hp.trans m.hist_grows

/-- The state with another history. -/
def State.withHist (s : State) (h : List Event) : State := { s with hist := h }

/-- An update of the state that does not read the history: with another one it gives the same state but for `HIST`. -/
def HistBlind (f : State → State) : Prop := ∀ s h, (f (s.withHist h)).withHist [] = (f s).withHist []

theorem HistBlind.comp {f g : State → State} (hf : HistBlind f) (hg : HistBlind g) :
    HistBlind (fun s => g (f s)) := by
  intro s h
  have e : f (s.withHist h) = (f s).withHist (f (s.withHist h)).hist :=
    calc f (s.withHist h) = ((f (s.withHist h)).withHist []).withHist (f (s.withHist h)).hist := rfl
      _ = (f s).withHist (f (s.withHist h)).hist := by rw [hf s h]; rfl
  show (g (f (s.withHist h))).withHist [] = (g (f s)).withHist []
  rw [e]
  exact hg (f s) _

theorem HistBlind.ite {c : State → Prop} [DecidablePred c] {f g : State → State}
    (hc : ∀ s h, c (s.withHist h) = c s) (hf : HistBlind f) (hg : HistBlind g) :
    HistBlind (fun s => if c s then f s else g s) := by
  intro s h
  simp only [hc s h]
  split
  · exact hf s h
  · exact hg s h

theorem histBlind_sampleSR : HistBlind sampleSR := fun _ _ => rfl

/-- A poll tests the status word, the latch and the clock, so it reads the history only if its success does. -/
theorem HistBlind.poll {met : StatusWord → Bool} {advance : State → State} (h : HistBlind advance) :
    HistBlind (poll met advance) :=
  .ite (fun _ _ => rfl) (histBlind_sampleSR.comp h) (.ite (fun _ _ => rfl) (fun _ _ => rfl) histBlind_sampleSR)

theorem HistBlind.pollOrFail {code : ResCode} {met : StatusWord → Bool} {advance : State → State}
    (h : HistBlind advance) : HistBlind (pollOrFail code met advance) :=
  .ite (fun _ _ => rfl) (fun _ _ => rfl) h.poll

theorem histBlind_addressAcknowledged : HistBlind addressAcknowledged := by
  have e : addressAcknowledged = fun s => if s.ph = .W
      then (if 0 < s.reqWlen.toNat then { s with idx := 0, seq := Seq.doTx } else finish .ok s)
      else goto Seq.doAckSetup s := by
    funext s
    cases hp : s.ph <;> simp [addressAcknowledged, hp]
  rw [e]
  exact .ite (fun _ _ => rfl) (.ite (fun _ _ => rfl) (fun _ _ => rfl) (fun _ _ => rfl)) (fun _ _ => rfl)

theorem histBlind_byteTransferred : HistBlind byteTransferred :=
  .ite (fun _ _ => rfl) (fun _ _ => rfl) (.ite (fun _ _ => rfl) (fun _ _ => rfl) (fun _ _ => rfl))

theorem histBlind_byteReceived : HistBlind byteReceived :=
  .ite (fun _ _ => rfl) (fun _ _ => rfl) (.ite (fun _ _ => rfl) (fun _ _ => rfl) (fun _ _ => rfl))

/-- Behind its guard every instruction is an update that does not read the history. -/
theorem exec_histBlind (i : Instr) : ∃ f, (∀ s, exec i s = live s (.next (f s))) ∧ HistBlind f := by
  cases i with
  | execute => exact ⟨_, fun _ => rfl, .ite (fun _ _ => rfl) (fun _ _ => rfl) (fun _ _ => rfl)⟩
  | selectPins => exact ⟨_, fun _ => rfl, .ite (fun _ _ => rfl) (fun _ _ => rfl) (fun _ _ => rfl)⟩
  | setSpeed =>
    exact ⟨_, fun _ => rfl, .ite (fun _ _ => rfl) (fun _ _ => rfl)
      (.ite (fun _ _ => rfl) (fun _ _ => rfl) (fun _ _ => rfl))⟩
  | waitFree => exact ⟨_, fun _ => rfl, .poll fun _ _ => rfl⟩
  | waitSb => exact ⟨_, fun _ => rfl, .poll fun _ _ => rfl⟩
  | waitAddr => exact ⟨_, fun _ => rfl, histBlind_addressAcknowledged.pollOrFail⟩
  | waitBtf => exact ⟨_, fun _ => rfl, histBlind_byteTransferred.pollOrFail⟩
  | waitRxne => exact ⟨_, fun _ => rfl, .pollOrFail fun _ _ => rfl⟩
  | doTx =>
    refine ⟨_, fun _ => rfl, fun s h => ?_⟩
    simp only [State.withHist]
    split <;> rfl
  | doRxRead =>
    refine ⟨_, fun _ => rfl, HistBlind.comp (f := fun s => { sampleDR s with
      rbuf := Memory.store Config.maxRead s.rbuf s.idx.toNat (nextDR s), idx := s.idx + 1 }) ?_ histBlind_byteReceived⟩
    exact fun _ _ => rfl
  | _ => exact ⟨_, fun _ => rfl, fun _ _ => rfl⟩

/-- A read's value does not come from the history. -/
theorem hostRead_withHist (r : HostReg) (s : State) (h : List Event) : hostRead r (s.withHist h) = hostRead r s := by
  cases r <;> rfl

/-- The guard does not look at the history, and passes an update of the next state on. -/
theorem onNext_live_withHist (f : State → State) (s : State) (h : List Event)
    (act : Host.Outcome State Fault Refusal) : onNext f (live (s.withHist h) act) = live s (onNext f act) := by
  show onNext f (live s act) = live s (onNext f act)
  cases hf : s.fault with
  | nil => simp only [live, hf]
  | cons r l => cases r <;> simp only [live, hf, stoppedBy, onNext]

/-- The answers of two states agree but for the history of the next state. -/
def SameButHist (a b : Host.Outcome State Fault Refusal) : Prop := onNext (·.withHist []) a = onNext (·.withHist []) b

theorem sameButHist_live {s : State} {h : List Event} {a b : Host.Outcome State Fault Refusal} (hab : SameButHist a b) :
    SameButHist (live (s.withHist h) a) (live s b) := by
  rw [SameButHist, onNext_live_withHist, hab]
  exact (onNext_live_withHist _ s s.hist b).symm

theorem exec_withHist (i : Instr) (s : State) (h : List Event) : SameButHist (exec i (s.withHist h)) (exec i s) := by
  obtain ⟨f, he, hf⟩ := exec_histBlind i
  rw [he, he]
  exact sameButHist_live (congrArg Host.Outcome.next (hf s h))

/-- A write's effect does not come from the history. -/
theorem hostWrite_withHist (r : HostReg) (v : Word) (s : State) (h : List Event) :
    SameButHist (hostWrite r v (s.withHist h)) (hostWrite r v s) := by
  cases r with
  | cmd =>
    simp only [hostWrite, issue]
    split
    · exact exec_withHist _ s h
    · rfl
  | wbuf i =>
    have blind : HistBlind (wbufWrite i v) := .ite (fun _ _ => rfl) (fun _ _ => rfl) (fun _ _ => rfl)
    exact congrArg Host.Outcome.next (blind s h)
  | _ => rfl

/-- No agent's step reads the history. -/
theorem agentStep_withHist (turn : Turn) (s : State) (h : List Event) :
    SameButHist (agentStep turn (s.withHist h)) (agentStep turn s) := by
  cases turn with
  | tick => exact sameButHist_live rfl
  | busError bits =>
    have blind : HistBlind (fun s => if s.crErrie then captureError bits s else s) :=
      .ite (fun _ _ => rfl) (fun _ _ => rfl) (fun _ _ => rfl)
    exact sameButHist_live (congrArg Host.Outcome.next (blind s h))
  | engine =>
    cases hd : decode (.seq s.seq) with
    | ok i =>
      have run : ∀ es, agentStep .engine (s.withHist es) = exec i (s.withHist es) := fun _ => engineStep_of_decode hd
      rw [run h, show agentStep .engine s = exec i s from run s.hist]
      exact exec_withHist i s h
    | rejected why =>
      have run : ∀ es, agentStep .engine (s.withHist es) =
          live (s.withHist es) (.next (raise .badSeq (s.withHist es))) := fun es => by
        simp only [agentStep, engineStep, show (s.withHist es).seq = s.seq from rfl, hd]
      rw [run h, show agentStep .engine s = live s (.next (raise .badSeq s)) from run s.hist]
      exact sameButHist_live rfl
  | host access =>
    refine sameButHist_live ?_
    cases access with
    | read off width =>
      dsimp only
      split
      · rfl
      · next r _ =>
        rw [hostRead_withHist]
        split <;> rfl
    | write off width v =>
      dsimp only
      split
      · rfl
      · exact hostWrite_withHist _ v s h

/-- Settles O54: each effect of a step appends to the history, and each agent's step is blind to it. -/
theorem historyOnlyGrowsAndIsNeverRead : Obligations.HistoryOnlyGrowsAndIsNeverRead := by
  refine ⟨fun s t hstep => ?grows, fun s h => agentStep_withHist (nextTurn s) (takeTurn s) h⟩
  case grows =>
    obtain ⟨es, he⟩ := (histGrows_kept s.hist).step ⟨[], List.append_nil _⟩ hstep
    exact ⟨es, he.symm⟩

end Sys2Proof.Machine

/-! PROOFS. The idle micro-state, the bus reads, the transfers past the last cell, and the state after reset (R21, R31,
R48, R115, R119). -/

namespace Sys2Proof.Machine

open Sys2Proof

/-- Settles O12: IDLE is the guard alone. -/
theorem idleChangesNothing : Obligations.IdleChangesNothing := fun _ hf => live_safe hf _

/-- Settles O13: the answer is the queue's head, and `HIST` takes its event. -/
theorem busReadsRecordTheAnswer : Obligations.BusReadsRecordTheAnswer := by
  intro s
  exact ⟨by simp only [sampleSR, List.isEmpty_iff], by simp only [sampleDR, List.isEmpty_iff],
    fun _ => rfl, fun _ => rfl⟩

/-- Settles O20: there is no cell to read, and none to store to. -/
theorem transfersPastTheLastCell : Obligations.TransfersPastTheLastCell := by
  intro s hf
  refine ⟨fun hi => ?transmit, fun hi => ?receive⟩
  case transmit =>
    calc exec .doTx s = .next (raise .wbufUnwritten s) := by
          simp only [exec, execDoTx, live_safe hf, cell_of_le s.wbuf hi]
      _ = .next { s with fault := [.wbufUnwritten] } := by simp only [raise, hf, List.insert_nil]
  case receive =>
    simp only [exec, execDoRxRead, live_safe hf, store_of_le s.rbuf _ hi, byteReceived, sampleDR_reqRlen]
    split_ifs <;> rfl

/-- `HZ_INIT` is at most `MAX_HZ` (R8, R39). -/
theorem hzInit_le : Config.hzInit.toNat ≤ Config.maxHz := by
  have h := Config.hzOpen.isLt
  simp only [Config.hzInit, BitVec.toNat_ofNat]
  omega

/-- Settles O41: the record of `State.reset`, field by field. -/
theorem resetLeavesTheTable : Obligations.ResetLeavesTheTable :=
  ⟨rfl, rfl, rfl, rfl, rfl, rfl, rfl, rfl, read_nil, read_nil, rfl, rfl, rfl, rfl, rfl, rfl, rfl, rfl, rfl,
    hzInit_le, rfl, rfl, rfl, rfl⟩

/-- The reset state stands at `IDLE`, no outcome set. -/
theorem sequencerInv_reset : SequencerInv State.reset :=
  .of_at_code ⟨Nat.zero_le _, Nat.zero_le _, hzInit_le⟩ ⟨rfl, rfl⟩

/-- Nothing has been transferred after reset, and no result posted. -/
theorem transferInv_reset : TransferInv State.reset :=
  .of_at_code sequencerInv_reset ⟨nofun, fun _ => rfl⟩

/-- Settles O42: no transaction has run, so what is said of one holds of none. -/
theorem invariantsHoldAtReset : Obligations.InvariantsHoldAtReset := by
  refine ⟨reset_wf, sequencerInv_reset, ⟨.inl rfl, fun _ => rfl, .inl rfl⟩, ?stop, fun _ => rfl, ?ack, ?pin, ?latch,
    transferInv_reset⟩
  case stop => exact ⟨fun h => absurd h (by decide), nofun, fun _ h => absurd rfl h⟩
  case ack => exact ⟨fun h => absurd h (by decide), rfl⟩
  case pin => exact fun h => absurd rfl h
  case latch => exact ⟨nofun, Nat.zero_le _, rfl⟩

end Sys2Proof.Machine

/-! PROOFS. The encoding is read back: what the decoder answers on the encoder's code (R80–R83, R88). -/

namespace Sys2Proof

/-- A field of a word that is written as a number below 2^32. -/
theorem field_ofNat {n lo w : Nat} {b : BitVec w} (hn : n < 2 ^ 32) (hb : n / 2 ^ lo % 2 ^ w = b.toNat) :
    field (BitVec.ofNat 32 n) lo w = b := by
  refine BitVec.eq_of_toNat_eq ?_
  rw [field_toNat, BitVec.toNat_ofNat, Nat.mod_eq_of_lt hn, hb]

/-- EXECUTE's word is read back field by field (R81, R82, R125). -/
theorem decode_encode_execute {addr : Addr} {wlen rlen : BitVec 8}
    (h : Instr.WellFormed (.execute addr wlen rlen)) :
    decode (encode (.execute addr wlen rlen)) = .ok (.execute addr wlen rlen) := by
  obtain ⟨hw, hr⟩ := (wellFormed_execute addr wlen rlen).mp h
  have ha := addr_lt addr
  have hw8 : wlen.toNat < 256 := wlen.isLt
  have hr8 : rlen.toNat < 256 := rlen.isLt
  generalize hn : rlen.toNat * 2 ^ 20 + wlen.toNat * 2 ^ 12 + addr.toNat * 2 ^ 4 + 0x1 = n
  have hlt : n < 2 ^ 32 := by omega
  have op : field (BitVec.ofNat 32 n) 0 4 = 1 := field_ofNat hlt (show _ = 1 by omega)
  have low : field (BitVec.ofNat 32 n) 11 1 = 0 := field_ofNat hlt (show _ = 0 by omega)
  have high : field (BitVec.ofNat 32 n) 28 4 = 0 := field_ofNat hlt (show _ = 0 by omega)
  have target : field (BitVec.ofNat 32 n) 4 Config.addrW = addr := field_ofNat hlt (by simp only [Config.addrW]; omega)
  have written : field (BitVec.ofNat 32 n) 12 8 = wlen := field_ofNat hlt (by omega)
  have read : field (BitVec.ofNat 32 n) 20 8 = rlen := field_ofNat hlt (by omega)
  simp only [encode, hn, decode, decodeCmd, decodeExecute, op, low, high, target, written, read, ne_eq,
    not_true_eq_false, or_self, if_true, if_false, if_neg hw.not_gt, if_neg hr.not_gt]

/-- Every well-formed instruction is read back from its own encoding (R80, R88). -/
theorem decode_encode {i : Instr} (h : i.WellFormed) : decode (encode i) = .ok i := by
  cases i with
  | execute addr wlen rlen => exact decode_encode_execute h
  | selectPins pair => cases pair <;> decide
  | _ => decide

end Sys2Proof

/-! PROOFS. A placed instruction is what the next step runs (R62, R88). -/

namespace Sys2Proof.Machine

open Sys2Proof

/-- HOST's write of a placed command word is the next turn, and is then taken off (log entry 9). -/
theorem step_placeCmd {v : Word} {i : Instr} (h : decode (.cmd v) = .ok i) (s : State) :
    step (placeCode (.cmd v) s) = exec i s := by
  obtain ⟨_, command, _, _⟩ := stepRunsTheDecodedInstruction (placeCode (.cmd v) s)
  exact command v i rfl h

/-- A placed micro-state stands in `SEQ`, and the ENGINE runs it in the next turn (log entry 9). -/
theorem step_placeSeq {q : BitVec 4} {i : Instr} (h : decode (.seq q) = .ok i) (s : State) :
    step (placeCode (.seq q) s) = exec i { s with seq := q } := by
  obtain ⟨engine, _, _, _⟩ := stepRunsTheDecodedInstruction (placeCode (.seq q) s)
  exact engine i rfl h

/-- Settles O30: the placed code decodes to the instruction, which the turn placed with it runs. -/
theorem placedInstructionRunsNext : Obligations.PlacedInstructionRunsNext := by
  intro s i hi
  have hd := decode_encode hi
  cases hc : encode i with
  | cmd v => exact step_placeCmd (hc ▸ hd) s
  | seq q => exact step_placeSeq (hc ▸ hd) s

end Sys2Proof.Machine

/-! PROOFS. The host register space: what a HOST access does, case by case (R43, R60–R65). -/

namespace Sys2Proof.Machine

open Sys2Proof

/-- Without a fault before it, the reason raised is the only one (R205). -/
theorem raise_of_safe {s : State} (hf : s.fault = []) (r : Reason) : raise r s = { s with fault := [r] } := by
  simp only [raise, hf, List.insert_nil]

theorem isBusy_eq_true_iff {s : State} : isBusy s = true ↔ s.seq ≠ 0 := decide_eq_true_iff

/-- A read of a mapped register hands its value to HOST, or raises its fault (R60). -/
theorem hostStep_read {s : State} (hf : s.fault = []) {off : Nat} {r : HostReg} (hr : accessReg off 4 = some r) :
    hostStep (.read off 4) s = .next (match hostRead r s with
      | .value v => { s with returned := s.returned ++ [v] }
      | .fails why => { s with fault := [why] }) := by
  simp only [hostStep, live_safe hf, hr]
  cases hostRead r s with
  | value v => rfl
  | fails why => exact congrArg Host.Outcome.next (raise_of_safe hf why)

/-- A write of a mapped register is that register's (R61). -/
theorem hostStep_write {s : State} (hf : s.fault = []) {off : Nat} {r : HostReg} (hr : accessReg off 4 = some r)
    (v : Word) : hostStep (.write off 4 v) s = hostWrite r v s := by
  simp only [hostStep, live_safe hf, hr]

/-- `STATUS` as a number: `BUSY` is bit 0 and `DONE` bit 1 (R43). -/
theorem statusWord_eq (s : State) :
    (0#30 ++ BitVec.ofBool (isDone s) ++ BitVec.ofBool (isBusy s) : Word) =
      BitVec.ofNat 32 ((if s.seq ≠ 0 then 1 else 0) + (if s.seq = 0 ∧ s.result ≠ .none then 2 else 0)) := by
  by_cases hs : s.seq = 0
  · by_cases hr : s.result = .none <;> simp [isBusy, isDone, hs, hr]
  · simp only [isBusy, isDone, hs, ne_eq, false_and, not_false_eq_true, decide_true, decide_false, if_true, if_false]
    decide

/-- `CONFIG` as a number: the selected pair's (R43, R38). -/
theorem configWord_eq (p : Pin) : ((bitOfPin p).zeroExtend 32 : Word) = if p = .pairA then 0 else 1 := by
  cases p <;> rfl

/-- Settles O35: each offset maps its register, whose word is the layout's. -/
theorem hostReadsTheRegisterMap : Obligations.HostReadsTheRegisterMap := by
  intro s hf
  refine ⟨?cmd, ?speedArg, ?resp, ?status, ?result, ?config, ?speed, fun i hi => ?wbuf⟩
  case cmd => exact hostStep_read hf (r := .cmd) rfl
  case speedArg => exact hostStep_read hf (r := .speedArg) rfl
  case resp => rw [BitVec.ofNat_toNat]; exact hostStep_read hf (r := .resp) rfl
  case status => rw [← statusWord_eq]; exact hostStep_read hf (r := .status) rfl
  case result => rw [BitVec.ofNat_toNat]; exact hostStep_read hf (r := .result) rfl
  case config => rw [← configWord_eq]; exact hostStep_read hf (r := .config) rfl
  case speed => exact hostStep_read hf (r := .speed) rfl
  case wbuf =>
    rw [hostStep_read hf (accessReg_wbuf hi), hostRead]
    cases Memory.read s.wbuf i with
    | none => rfl
    | some b => simp only [BitVec.ofNat_toNat]

/-- Settles O36: the busy test comes before the cell is read. -/
theorem hostReadsTheReadBuffer : Obligations.HostReadsTheReadBuffer := by
  intro s i hf hi
  rw [hostStep_read hf (accessReg_rbuf hi)]
  simp only [hostRead, isBusy_eq_true_iff]
  by_cases hs : s.seq ≠ 0
  · simp only [if_pos hs]
  · simp only [if_neg hs]
    cases Memory.read s.rbuf i with
    | none => rfl
    | some b => simp only [BitVec.ofNat_toNat]

/-- Settles O37: each offset maps its register, whose write is the rule's. -/
theorem hostWritesTheRegisterMap : Obligations.HostWritesTheRegisterMap := by
  intro s v hf
  refine ⟨hostStep_write hf (r := .cmd) rfl v, hostStep_write hf (r := .speedArg) rfl v,
    fun i hi => hostStep_write hf (accessReg_wbuf hi) v, ?readOnly,
    fun i hi => hostStep_write hf (accessReg_rbuf hi) v⟩
  case readOnly =>
    simp only [List.forall_mem_cons]
    exact ⟨hostStep_write hf (r := .resp) rfl v, hostStep_write hf (r := .status) rfl v,
      hostStep_write hf (r := .result) rfl v, hostStep_write hf (r := .config) rfl v,
      hostStep_write hf (r := .speed) rfl v, nofun⟩

/-- Settles O38: the low byte of the word is its field at 0. -/
theorem hostWritesTheWriteBufferWhileIdle : Obligations.HostWritesTheWriteBufferWhileIdle := by
  intro s i v hf hi
  have low : v.truncate 8 = field v 0 8 := by
    refine BitVec.eq_of_toNat_eq ?_
    simp [field_toNat]
  rw [hostStep_write hf (accessReg_wbuf hi)]
  simp only [hostWrite, wbufWrite, isBusy_eq_true_iff, raise_of_safe hf, low]

/-- No register stands at an offset that is misaligned or in a gap of the map (R43, R65). -/
theorem regAt_eq_none {off : Nat} (h : off % 4 ≠ 0 ∨
    (0x018 < off ∧ off < 0x100) ∨ (0x2EC < off ∧ off < 0x300) ∨ 0x4FC < off) : regAt off = none := by
  by_cases ha : off % 4 = 0
  · simp only [regAt, Config.maxWrite, Config.maxRead]
    repeat rw [if_neg (by omega)]
  · exact if_pos ha

/-- Settles O39: the access reaches no register, whether it reads or writes. -/
theorem badHostAccessFaults : Obligations.BadHostAccessFaults := by
  intro s off width v hf hbad
  have unmapped : accessReg off width = none := by
    by_cases hw : width = 4
    · rw [accessReg, if_pos hw]
      exact regAt_eq_none (hbad.resolve_left (not_not.mpr hw))
    · exact if_neg hw
  simp only [hostStep, live_safe hf, unmapped, raise_of_safe hf, and_self]

end Sys2Proof.Machine

/-! PROOFS. The legal command words: what the decoder accepts, spelt out, and that such a word is the encoding of what it
decodes to (R80–R83, R86, R88). -/

namespace Sys2Proof

/-- The words that R80 accepts and the instruction each spells: the row's `OP`, its reserved bits 0, its lengths in
range. -/
inductive LegalWord (v : Word) : Instr → Prop where
  | execute (op : field v 0 4 = 1) (low : field v 11 1 = 0) (high : field v 28 4 = 0)
    (write : (field v 12 8).toNat ≤ Config.maxWrite) (read : (field v 20 8).toNat ≤ Config.maxRead) :
    LegalWord v (.execute (field v 4 Config.addrW) (field v 12 8) (field v 20 8))
  | selectPins (op : field v 0 4 = 2) (high : field v 5 27 = 0) : LegalWord v (.selectPins (pinOfBit (field v 4 1)))
  | setSpeed (op : field v 0 4 = 3) (high : field v 4 28 = 0) : LegalWord v .setSpeed

/-- The decoder accepts exactly the legal words, each for the instruction that it spells. -/
theorem decode_cmd_eq_ok_iff {v : Word} {i : Instr} : decode (.cmd v) = .ok i ↔ LegalWord v i := by
  constructor
  · intro h
    simp only [decode, decodeCmd, decodeExecute, decodeSelectPins, decodeSetSpeed] at h
    repeat' split at h
    any_goals cases h
    · next op reserved write read =>
      obtain ⟨low, high⟩ := not_or.mp reserved
      exact .execute op (not_not.mp low) (not_not.mp high) (not_lt.mp write) (not_lt.mp read)
    · next op high => exact .selectPins op (not_not.mp high)
    · next op high => exact .setSpeed op (not_not.mp high)
  · rintro (⟨op, low, high, write, read⟩ | ⟨op, high⟩ | ⟨op, high⟩)
    · simp [decode, decodeCmd, decodeExecute, op, low, high, write.not_gt, read.not_gt]
    · simp [decode, decodeCmd, decodeSelectPins, op, high]
    · simp [decode, decodeCmd, decodeSetSpeed, op, high]

/-- What the value of a field says of the word as a number. -/
theorem div_mod_of_field {v : Word} {lo n : Nat} {b : BitVec n} (h : field v lo n = b) :
    v.toNat / 2 ^ lo % 2 ^ n = b.toNat := by
  rw [← field_toNat, h]

/-- A legal word obeys the length bounds (R82). -/
theorem LegalWord.wellFormed {v : Word} {i : Instr} (h : LegalWord v i) : i.WellFormed := by
  cases h with
  | execute _ _ _ write read => exact (wellFormed_execute _ _ _).mpr ⟨write, read⟩
  | selectPins => rfl
  | setSpeed => rfl

/-- The fields of a row and its reserved bits are the whole word (R81), so a legal word is its instruction's encoding. -/
theorem LegalWord.encode_eq {v : Word} {i : Instr} (h : LegalWord v i) : encode i = .cmd v := by
  have hv : v.toNat < 2 ^ 32 := v.isLt
  cases h with
  | execute op low high =>
    have op : _ = 1 := div_mod_of_field op
    have low : _ = 0 := div_mod_of_field low
    have high : _ = 0 := div_mod_of_field high
    refine congrArg Code.cmd (BitVec.eq_of_toNat_eq ?_)
    simp only [BitVec.toNat_ofNat, field_toNat, Config.addrW]
    omega
  | selectPins op high =>
    have op : _ = 2 := div_mod_of_field op
    have high : _ = 0 := div_mod_of_field high
    refine congrArg Code.cmd (BitVec.eq_of_toNat_eq ?_)
    simp only [BitVec.toNat_ofNat, bitOfPin_pinOfBit, field_toNat]
    omega
  | setSpeed op high =>
    have op : _ = 3 := div_mod_of_field op
    have high : _ = 0 := div_mod_of_field high
    refine congrArg Code.cmd (BitVec.eq_of_toNat_eq (?_ : 3 = v.toNat))
    omega

/-- Every micro-state is well formed: it has no operand. -/
theorem wellFormed_of_encode_seq {i : Instr} {c : BitVec 4} (h : encode i = .seq c) : i.WellFormed := by
  cases i with
  | execute => cases h
  | _ => rfl

/-- The illegal words of R86. -/
def IllegalWord (v : Word) : Prop :=
  (field v 0 4 ≠ 1 ∧ field v 0 4 ≠ 2 ∧ field v 0 4 ≠ 3) ∨
    (field v 0 4 = 1 ∧ (field v 11 1 ≠ 0 ∨ field v 28 4 ≠ 0 ∨
      Config.maxWrite < (field v 12 8).toNat ∨ Config.maxRead < (field v 20 8).toNat)) ∨
    (field v 0 4 = 2 ∧ field v 5 27 ≠ 0) ∨ (field v 0 4 = 3 ∧ field v 4 28 ≠ 0)

/-- A word on R86's list spells no instruction. -/
theorem LegalWord.not_illegal {v : Word} {i : Instr} (h : LegalWord v i) : ¬IllegalWord v := by
  cases h with
  | execute op low high write read => simp [IllegalWord, op, low, high, write.not_gt, read.not_gt]
  | selectPins op high => simp [IllegalWord, op, high]
  | setSpeed op high => simp [IllegalWord, op, high]

/-- R86's list leaves nothing out: any other word spells an instruction. -/
theorem exists_legalWord {v : Word} (h : ¬IllegalWord v) : ∃ i, LegalWord v i := by
  simp only [IllegalWord, not_or, not_and, not_not, not_lt] at h
  obtain ⟨operation, execute, selectPins, setSpeed⟩ := h
  by_cases op1 : field v 0 4 = 1
  · obtain ⟨low, high, write, read⟩ := execute op1
    exact ⟨_, .execute op1 low high write read⟩
  · by_cases op2 : field v 0 4 = 2
    · exact ⟨_, .selectPins op2 (selectPins op2)⟩
    · have op3 := operation op1 op2
      exact ⟨_, .setSpeed op3 (setSpeed op3)⟩

/-- Settles O1: the fields of each command word are disjoint, and the fourteen codes differ. -/
theorem decodeReadsBackEncode : Obligations.DecodeReadsBackEncode := fun _ h => decode_encode h

/-- Settles O2: a legal word is its instruction's fields and zeros, and a code names one micro-state. -/
theorem encodeReadsBackDecode : Obligations.EncodeReadsBackDecode := by
  intro c i h
  cases c with
  | cmd v =>
    have legal := decode_cmd_eq_ok_iff.mp h
    exact ⟨legal.wellFormed, legal.encode_eq⟩
  | seq q =>
    have code := Machine.decodeSeq_ok h
    exact ⟨wellFormed_of_encode_seq code, code⟩

/-- Settles O3: each word is evaluated. -/
theorem workedWordsDecode : Obligations.WorkedWordsDecode := by
  unfold Obligations.WorkedWordsDecode
  decide

end Sys2Proof

/-! PROOFS. What the block does with a code: illegal words, unheld sequencer codes, the result codes, and the EXECUTE line
of the assembly (R80, R85, R86, R88, R89). -/

namespace Sys2Proof.Machine

open Sys2Proof

/-- A word that the decoder rejects raises its fault and does nothing else (R80, R205). -/
theorem issue_of_rejected {v : Word} {why : Reject} (h : decode (.cmd v) = .rejected why) {s : State}
    (hf : s.fault = []) : issue v s = .next { s with fault := [.illegalCommand] } := by
  simp only [issue, h, raise_of_safe hf]

/-- Settles O4: R86's list is the complement of the legal words. -/
theorem illegalWordsFaultAndNothingElse : Obligations.IllegalWordsFaultAndNothingElse := by
  intro v s hf
  split
  next illegal =>
    cases hd : decode (.cmd v) with
    | ok i => exact absurd illegal (decode_cmd_eq_ok_iff.mp hd).not_illegal
    | rejected why => exact issue_of_rejected hd hf
  next legal =>
    obtain ⟨i, hi⟩ := exists_legalWord legal
    have hd := decode_cmd_eq_ok_iff.mpr hi
    exact ⟨i, hd, hi.wellFormed, issue_of_decode hd s⟩

/-- The assembler's word is the encoder's: R89's shifts are R81's places. -/
theorem encode_execute_eq_executeWord (addr : Addr) (n rlen : BitVec 8) :
    encode (.execute addr n rlen) = .cmd (executeWord addr n rlen) := by
  have ha := addr_lt addr
  have hn : n.toNat < 256 := n.isLt
  have hr : rlen.toNat < 256 := rlen.isLt
  refine congrArg Code.cmd (BitVec.eq_of_toNat_eq ?_)
  simp only [executeWord, BitVec.toNat_ofNat, BitVec.toNat_add, BitVec.toNat_shiftLeft, BitVec.truncate_eq_setWidth,
    BitVec.toNat_setWidth, Nat.shiftLeft_eq]
  omega

/-- Settles O40: the line's last access carries the encoder's word, and the k-th before it the k-th byte. -/
theorem executeLineIssuesItsCommand : Obligations.ExecuteLineIssuesItsCommand := by
  intro addr rlen bytes hbytes hrlen
  have count : (BitVec.ofNat 8 bytes.length).toNat = bytes.length := Nat.mod_eq_of_lt (by omega)
  have wf : Instr.WellFormed (.execute addr (BitVec.ofNat 8 bytes.length) rlen) :=
    (wellFormed_execute _ _ _).mpr ⟨count.symm ▸ hbytes, hrlen⟩
  refine ⟨executeWord addr (BitVec.ofNat 8 bytes.length) rlen, ?last, ?decoded, ?length, fun k b hk => ?byte⟩
  case last => exact List.getLast?_concat
  case decoded => rw [← encode_execute_eq_executeWord]; exact decode_encode wf
  case length => simp only [expand, expandExecute, List.length_append, List.length_mapIdx, List.length_singleton]
  case byte =>
    have inside : k < bytes.length := (List.getElem?_eq_some_iff.mp hk).1
    simp only [expand, expandExecute]
    rw [List.getElem?_append_left (by simpa using inside), List.getElem?_mapIdx, hk, BitVec.ofNat_toNat]
    rfl

/-- Settles O5: the numbers are the definition's. -/
theorem resultCodesAreNumbered : Obligations.ResultCodesAreNumbered := ⟨rfl, rfl, rfl, rfl, rfl, rfl, rfl, rfl⟩

/-- Codes 14 and 15 are no micro-state (R88). -/
theorem decode_seq_unheld {c : BitVec 4} (h : c = 14 ∨ c = 15) : decode (.seq c) = .rejected .sequencerCode := by
  rcases h with rfl | rfl <;> rfl

/-- The ENGINE at a code that is no micro-state raises its fault and does nothing else (R88, R205). -/
theorem engineStep_of_rejected {s : State} {why : Reject} (h : decode (.seq s.seq) = .rejected why)
    (hf : s.fault = []) : engineStep s = .next { s with fault := [.badSeq] } := by
  simp only [engineStep, live_safe hf, h, raise_of_safe hf]

/-- Settles O33: taking the turn off leaves `SEQ` and `FAULT`, and the decoder rejects the code. -/
theorem unheldCodesFaultBadSeq : Obligations.UnheldCodesFaultBadSeq := fun _ hf hturn hseq =>
  (step_eq_agentStep hturn).trans (engineStep_of_rejected (decode_seq_unheld hseq) hf)

end Sys2Proof.Machine

/-! PROOFS. The case analysis of a step for an invariant of the transaction that leans on the sequencer's: the effects
that do not concern a transaction are settled once (R6, R49). -/

namespace Sys2Proof.Machine

open Sys2Proof

/-- What the invariants of R123 read of a state. HOST's reads and writes, the timer, a raised fault, and a command that
is answered without a reinit or an accept leave it unchanged. -/
def transactionView (s : State) :
    (BitVec 4 × BitVec 8 × ResCode × ResCode × BitVec 8) × (Bool × Bool × List Event) :=
  ((s.seq, s.idx, s.outcome, s.result, s.reqRlen), (s.crAck, s.crErrie, s.hist))

theorem transactionView_eq_iff {s t : State} : transactionView t = transactionView s ↔
    (t.seq = s.seq ∧ t.idx = s.idx ∧ t.outcome = s.outcome ∧ t.result = s.result ∧ t.reqRlen = s.reqRlen) ∧
      t.crAck = s.crAck ∧ t.crErrie = s.crErrie ∧ t.hist = s.hist := by
  simp only [transactionView, Prod.mk.injEq]

/-- Under the sequencer invariant the effects that do concern a transaction keep `P`, which reads no more than
`transactionView`. -/
structure KeptInTransaction (P : State → Prop) : Prop where
  view : ∀ s t, P s → transactionView t = transactionView s → P t
  capture : ∀ bits s, SequencerInv s → s.crErrie = true → P s → P (captureError bits s)
  accepted : ∀ a wl rl s, P s → P (acceptExecute a wl rl s)
  reinit : ∀ s, s.seq = 0 → P s → P (Machine.reinit s)
  move : ∀ s t, SequencerInv s → Move s t → P s → P t

/-- Then every effect of a step keeps `P` together with the sequencer invariant. -/
theorem KeptInTransaction.kept {P : State → Prop} (k : KeptInTransaction P) : Kept (fun s => SequencerInv s ∧ P s) where
  env s a b c d h := ⟨sequencerInv_kept.env s a b c d h.1, k.view s _ h.2 rfl⟩
  raised r s h := ⟨sequencerInv_kept.raised r s h.1, k.view s _ h.2 rfl⟩
  read v s h := ⟨sequencerInv_kept.read v s h.1, k.view s _ h.2 rfl⟩
  speedArg v s h := ⟨sequencerInv_kept.speedArg v s h.1, k.view s _ h.2 rfl⟩
  bufferWrite i b s hb hi h := ⟨sequencerInv_kept.bufferWrite i b s hb hi h.1, k.view s _ h.2 rfl⟩
  tick s h := ⟨sequencerInv_kept.tick s h.1, k.view s _ h.2 rfl⟩
  capture b s hc h := ⟨sequencerInv_kept.capture b s hc h.1, k.capture b s h.1 hc h.2⟩
  rejected s hb h := ⟨sequencerInv_kept.rejected s hb h.1, k.view s _ h.2 rfl⟩
  accepted a wl rl s hb hw hr h := ⟨sequencerInv_kept.accepted a wl rl s hb hw hr h.1, k.accepted a wl rl s h.2⟩
  pins p s hb h :=
    ⟨sequencerInv_kept.pins p s hb h.1,
      k.view (Machine.reinit { s with pin := p }) _
        (k.reinit _ (idle_of_not_busy hb) (k.view s { s with pin := p } h.2 rfl)) rfl⟩
  tooFast s hb h := ⟨sequencerInv_kept.tooFast s hb h.1, k.view s _ h.2 rfl⟩
  speed s hb hz h :=
    ⟨sequencerInv_kept.speed s hb hz h.1,
      k.view (Machine.reinit { s with hz := s.speedArg }) _
        (k.reinit _ (idle_of_not_busy hb) (k.view s { s with hz := s.speedArg } h.2 rfl)) rfl⟩
  move s t m h := ⟨sequencerInv_kept.move s t m h.1, k.move s t h.1 m h.2⟩

end Sys2Proof.Machine

/-! PROOFS. The STOP of a transaction: asserted once and before its end, on every path (R121, R122, R123 item 1). -/

namespace Sys2Proof.Machine

open Sys2Proof

/-- The event is neither an accept, nor a STOP, nor an end. -/
def Event.isInner (e : Event) : Prop := e.isAccept = false ∧ e ≠ .stop ∧ ∀ c, e ≠ .done c

/-- Such an event leaves a transaction unstopped. -/
theorem Unstopped.snoc {h : List Event} (hu : Unstopped (sinceAccept h)) {e : Event} (he : e.isInner) :
    Unstopped (sinceAccept (h ++ [e])) := by
  obtain ⟨hstop, hdone⟩ := hu
  obtain ⟨ha, hs, hd⟩ := he
  rw [sinceAccept_snoc, if_neg (by simp [ha])]
  exact ⟨by simp [hstop, hs.symm], fun c => by simp [hdone c, (hd c).symm]⟩

/-- The STOP of an unstopped transaction is its first. -/
theorem Unstopped.stop {t : List Event} (hu : Unstopped t) : Stopped (t ++ [.stop]) := ⟨t, [], rfl, hu, nofun⟩

/-- A capture may still follow the STOP (R171). -/
theorem Stopped.snoc_capture {t : List Event} (h : Stopped t) {e : Event} (he : e.isCapture = true) :
    Stopped (t ++ [e]) := by
  obtain ⟨before, after, rfl, hu, hafter⟩ := h
  refine ⟨before, after ++ [e], by simp, hu, fun e' he' => ?_⟩
  obtain h | h := List.mem_append.mp he'
  · exact hafter e' h
  · exact List.mem_singleton.mp h ▸ he

/-- The end of a stopped transaction. -/
theorem Stopped.close {t : List Event} (h : Stopped t) (c : ResCode) : Closed c (t ++ [.errie false, .done c]) :=
  ⟨t, [], rfl, h, nofun⟩

/-- A reinit may follow the end (R156). -/
theorem Closed.snoc_reinit {c : ResCode} {t : List Event} (h : Closed c t) {e : Event} (he : e.isReinit = true) :
    Closed c (t ++ [e]) := by
  obtain ⟨during, since, rfl, hs, hsince⟩ := h
  refine ⟨during, since ++ [e], by simp, hs, fun e' he' => ?_⟩
  obtain h | h := List.mem_append.mp he'
  · exact hsince e' h
  · exact List.mem_singleton.mp h ▸ he

/-- The STOP invariant depends on two registers and on the history. -/
theorem StopInv.of_view {s t : State} (h : StopInv s) (hv : transactionView t = transactionView s) : StopInv t := by
  obtain ⟨⟨eseq, _, _, eres, _⟩, _, _, ehist⟩ := transactionView_eq_iff.mp hv
  obtain ⟨running, stopped, closed⟩ := h
  constructor <;> simpa only [eseq, eres, ehist]

/-- The micro-states up to DO_STOP. -/
def isRunning (s : State) : Prop := 1 ≤ s.seq.toNat ∧ s.seq.toNat ≤ 12

/-- Of a transaction up to DO_STOP the invariant asks that it be unstopped. -/
theorem StopInv.of_running {t : State} (ht : isRunning t) (hu : Unstopped (sinceAccept t.hist)) : StopInv t where
  running _ _ := hu
  stopped e := absurd ht.2 (by simp [e])
  closed e := absurd ht.1 (by simp [e])

/-- A move before DO_STOP is made leaves the transaction running, and what it records neither stops nor ends it. -/
def RunsOn (s t : State) : Prop :=
  isRunning s ∧ isRunning t ∧ (t.hist = s.hist ∨ ∃ e : Event, t.hist = s.hist ++ [e] ∧ e.isInner)

/-- A poll stands before DO_STOP. -/
theorem isRunning_of_poll {s : State} (e : s.seq = 1 ∨ s.seq = 3 ∨ s.seq = 5 ∨ s.seq = 7 ∨ s.seq = 9) :
    isRunning s := by
  rcases e with e | e | e | e | e <;> simp [isRunning, e]

/-- A move stays at `IDLE`, runs on, asserts STOP, or ends the transaction (R121, R122, R126). -/
theorem Move.stop_cases {s t : State} (m : Move s t) :
    t = s ∨ RunsOn s t ∨ (s.seq = 12 ∧ t = goto Seq.doErrOff (emit .stop s)) ∨
      (s.seq = 13 ∧ t.seq = 0 ∧ t.result = s.outcome ∧ t.hist = s.hist ++ [.errie false, .done s.outcome]) := by
  cases m with
  | idle => exact .inl rfl
  | stop e => exact .inr (.inr (.inl ⟨e, rfl⟩))
  | post e => exact .inr (.inr (.inr ⟨e, rfl, rfl, rfl⟩))
  | unwritten e => exact .inr (.inl ⟨by simp [isRunning, e], by simp [isRunning, e], .inl rfl⟩)
  | stay e => exact .inr (.inl ⟨isRunning_of_poll e, isRunning_of_poll e, .inr ⟨_, rfl, rfl, nofun, nofun⟩⟩)
  | timeout e =>
    exact .inr (.inl ⟨isRunning_of_poll e, by simp [isRunning], .inr ⟨_, rfl, rfl, nofun, nofun⟩⟩)
  | dataNack e =>
    exact .inr (.inl ⟨isRunning_of_poll (.inr (.inr (.inr e))), by simp [isRunning], .inr ⟨_, rfl, rfl, nofun, nofun⟩⟩)
  | free e | start e | started e | address e | addressNack e | probed e | toWrite e | toRead e | transmit e
  | nextByte e | restart e | written e | ackSetup e | ready e | lastByte e | lastButOne e | earlierByte e | ackOff e =>
    exact .inr (.inl ⟨by simp [isRunning, e], by simp [isRunning], .inr ⟨_, rfl, rfl, nofun, nofun⟩⟩)

/-- Every move keeps the STOP invariant: DO_STOP alone asserts STOP, and DO_ERR_OFF alone ends the transaction. -/
theorem StopInv.of_move {s t : State} (h : StopInv s) (m : Move s t) : StopInv t := by
  obtain rfl | ⟨hs, ht, hhist⟩ | ⟨e, rfl⟩ | ⟨e, e0, eres, ehist⟩ := m.stop_cases
  · exact h
  · have hu := h.running hs.1 hs.2
    obtain ehist | ⟨ev, ehist, hev⟩ := hhist
    · exact .of_running ht (ehist ▸ hu)
    · exact .of_running ht (ehist ▸ hu.snoc hev)
  · have hu : Unstopped (sinceAccept s.hist) := h.running (by simp [e]) (by simp [e])
    exact ⟨nofun, fun _ => by simpa [Event.isAccept] using hu.stop, nofun⟩
  · have hst : Stopped (sinceAccept s.hist) := h.stopped e
    refine ⟨fun h1 => ?_, fun h13 => ?_, fun _ _ => ?_⟩
    · simp [e0] at h1
    · simp [e0] at h13
    · rw [eres, ehist]
      simpa [Event.isAccept] using hst.close s.outcome

/-- A capture keeps the STOP invariant: it comes in a running transaction, or between its STOP and its end, and never
while the block is idle, where the interrupt is off (R171, R49 item 1). -/
theorem StopInv.capture {s : State} (h : StopInv s) (hq : SequencerInv s) (hc : s.crErrie = true) (bits : LatchWord) :
    StopInv (captureError bits s) := by
  refine ⟨fun h1 h12 => ?running, fun h13 => ?stopped, fun h0 _ => ?closed⟩
  case running =>
    show Unstopped (sinceAccept (s.hist ++ [.errlatch bits, .errie false]))
    rw [append_pair]
    have hu := (h.running h1 h12).snoc (e := .errlatch bits) ⟨rfl, nofun, nofun⟩
    exact hu.snoc (e := .errie false) ⟨rfl, nofun, nofun⟩
  case stopped =>
    have hst := ((h.stopped h13).snoc_capture (e := .errlatch bits) rfl).snoc_capture (e := .errie false) rfl
    simpa [Event.isAccept] using hst
  case closed => exact absurd hc (by simp [hq.quiet h0])

/-- An accept begins a transaction without a STOP (R101). -/
theorem stopInv_accept (a : Addr) (wl rl : BitVec 8) (s : State) : StopInv (acceptExecute a wl rl s) :=
  .of_running ⟨by simp [acceptExecute], by simp [acceptExecute]⟩ (by simp [acceptExecute, Event.isAccept, Unstopped])

/-- A reinit keeps the STOP invariant: it comes while the block is idle (R150, R156). -/
theorem StopInv.reinit {s : State} (h : StopInv s) (h0 : s.seq = 0) : StopInv (Machine.reinit s) := by
  refine ⟨fun h1 => ?_, fun h13 => ?_, fun _ hr => ?_⟩
  · simp [h0] at h1
  · simp [h0] at h13
  · rw [reinit_hist, sinceAccept_snoc, if_neg (by simp [Event.isAccept])]
    exact (h.closed h0 hr).snoc_reinit rfl

/-- The STOP invariant is kept by every effect of a step, together with the sequencer invariant. -/
theorem stopInv_kept : Kept (fun s => SequencerInv s ∧ StopInv s) :=
  KeptInTransaction.kept
    { view := fun _ _ h hv => h.of_view hv
      capture := fun bits _ hq hc h => h.capture hq hc bits
      accepted := fun a wl rl s _ => stopInv_accept a wl rl s
      reinit := fun _ h0 h => h.reinit h0
      move := fun _ _ _ m h => h.of_move m }

/-- Settles O45: every way through the sequencer leads by DO_STOP to DO_ERR_OFF. -/
theorem stopIsAlwaysIssued : Obligations.StopIsAlwaysIssued := fun _ _ hq h hstep =>
  (stopInv_kept.step ⟨hq, h⟩ hstep).2

end Sys2Proof.Machine

/-! PROOFS. What the history says of a transaction, kept by every step: its pin pair, its address and its ACK control
(R117, R120, R123 items 3, 4 and 6). -/

namespace Sys2Proof.Machine

open Sys2Proof

/-- Only the accept leads from `IDLE` to a running transaction (R126). -/
theorem Move.running_source {s t : State} (m : Move s t) (ht : t.seq ≠ 0) : s.seq ≠ 0 := by
  obtain ⟨_, ⟨_, hidle⟩ | ⟨h0, _⟩⟩ := m.codes_eq
  · exact mt hidle ht
  · exact absurd h0 ht

/-- A move neither records an accept nor changes the pin pair. -/
theorem Move.acceptedPin_eq {s t : State} (m : Move s t) :
    acceptedPin t.hist = acceptedPin s.hist ∧ t.pin = s.pin := by
  cases m <;> simp

/-- A pair is selected only at `IDLE` (R150), and the accept records the current one (R101). -/
theorem onePinInv_kept : Kept OnePinInv where
  env _ _ _ _ _ h := h
  raised _ _ h := h
  read _ _ h := h
  speedArg _ _ h := h
  bufferWrite _ _ _ _ _ h := h
  tick _ h := h
  capture _ _ _ h hs := by simpa using h hs
  rejected _ _ h := h
  accepted _ _ _ _ _ _ _ _ _ := by simp [acceptExecute]
  pins _ _ hb _ hs := absurd (idle_of_not_busy hb) hs
  tooFast _ _ h := h
  speed _ hb _ _ hs := absurd (idle_of_not_busy hb) hs
  move s t m h ht := by
    obtain ⟨eacc, epin⟩ := m.acceptedPin_eq
    rw [eacc, epin]
    exact h (m.running_source ht)

/-- Settles O48: until the block is idle again, the last accept's pair stays selected. -/
theorem transactionStaysOnItsPinPair : Obligations.TransactionStaysOnItsPinPair := fun _ _ h hstep =>
  onePinInv_kept.step h hstep

/-- No outcome is set before DO_STOP (R49 item 6). -/
theorem SequencerInv.no_outcome {s : State} (h : SequencerInv s) (h12 : s.seq ≠ 12) (h13 : s.seq ≠ 13) :
    s.outcome = .none := by
  by_contra ho
  exact (h.stopping.mpr ho).elim h12 h13

/-- The address invariant depends on three registers and on one reading of the history. -/
theorem AddressNackInv.of_eq {s t : State} (h : AddressNackInv s)
    (hv : (t.seq, t.outcome, t.result, dataSinceAddress t.hist) =
      (s.seq, s.outcome, s.result, dataSinceAddress s.hist)) : AddressNackInv t := by
  simp only [Prod.mk.injEq] at hv
  obtain ⟨eseq, eout, eres, edata⟩ := hv
  rwa [AddressNackInv, eseq, eout, eres, edata]

/-- It asks nothing of a running transaction away from its address poll, unless that is ending `ADDRESS_NACK`. -/
theorem AddressNackInv.of_elsewhere {t : State} (h5 : t.seq ≠ Seq.waitAddr) (h0 : t.seq ≠ Seq.idle)
    (ho : t.outcome ≠ .addressNack) : AddressNackInv t := by
  rintro (h | h | ⟨h, _⟩)
  · exact absurd h h5
  · exact absurd h ho
  · exact absurd h h0

/-- Every move keeps the address invariant: the address byte starts the count afresh, and only its own poll ends
`ADDRESS_NACK` (R113, R114). -/
theorem AddressNackInv.of_move {s t : State} (h : AddressNackInv s) (hq : SequencerInv s) (m : Move s t) :
    AddressNackInv t := by
  have notNack (h12 : s.seq ≠ 12) (h13 : s.seq ≠ 13) : s.outcome ≠ .addressNack := hq.no_outcome h12 h13 ▸ nofun
  cases m with
  | idle => exact h
  | stay | unwritten => exact h.of_eq (by simp)
  | address => exact fun _ => by simp
  | addressNack e => exact fun _ => by simpa using h (.inl e)
  | timeout | dataNack | probed | written | lastByte => exact .of_elsewhere (by simp) (by simp) nofun
  | stop =>
    rintro (ht | ho | ⟨ht, _⟩)
    · cases ht
    · simpa using h (.inr (.inl ho))
    · cases ht
  | post =>
    rintro (ht | ho | ⟨_, hr⟩)
    · cases ht
    · cases ho
    · simpa using h (.inr (.inl hr))
  | free e | start e | started e | toWrite e | toRead e | transmit e | nextByte e | restart e | ackSetup e | ready e
  | lastButOne e | earlierByte e | ackOff e =>
    exact .of_elsewhere (by simp) (by simp) (notNack (by simp [e]) (by simp [e]))

/-- The address invariant is kept by every effect of a step, together with the sequencer invariant. -/
theorem addressNackInv_kept : Kept (fun s => SequencerInv s ∧ AddressNackInv s) :=
  KeptInTransaction.kept
    { view := fun s t h hv => by
        obtain ⟨⟨eseq, _, eout, eres, _⟩, _, _, ehist⟩ := transactionView_eq_iff.mp hv
        exact h.of_eq (by rw [eseq, eout, eres, ehist])
      capture := fun _ _ _ _ h => h.of_eq (by simp)
      accepted := fun _ _ _ _ _ _ => by simp [acceptExecute]
      reinit := fun _ _ h => h.of_eq (by simp)
      move := fun _ _ hq m h => h.of_move hq m }

/-- Settles O46: the address byte starts the count afresh, and its poll moves no data. -/
theorem addressNackMovesNoData : Obligations.AddressNackMovesNoData := fun _ _ hq h hstep =>
  (addressNackInv_kept.step ⟨hq, h⟩ hstep).2

/-- The ACK invariant depends on the byte count and the control bits, held and recorded. -/
theorem AckInv.of_view {s t : State} (h : AckInv s) (hv : transactionView t = transactionView s) : AckInv t := by
  obtain ⟨⟨eseq, eidx, _, _, er⟩, eack, eerrie, ehist⟩ := transactionView_eq_iff.mp hv
  obtain ⟨line, recorded⟩ := h
  constructor <;> simpa only [eseq, eidx, er, eack, eerrie, ehist]

/-- A move that writes a control bit records it (R117, R120, R122). -/
theorem Move.controlBits_eq {s t : State} (m : Move s t) (h : controlBits s.hist = (s.crAck, s.crErrie)) :
    controlBits t.hist = (t.crAck, t.crErrie) := by
  cases m <;> simp [h]

/-- Every move leads to a byte whose ACK is on exactly if it is not the last (R117, R119, R120). -/
theorem AckInv.line_of_move {s t : State} (h : AckInv s) (hq : SequencerInv s) (m : Move s t)
    (ht : t.seq = Seq.waitRxne ∨ t.seq = Seq.doRxRead) : t.crAck = decide (t.idx.toNat + 1 < t.reqRlen.toNat) := by
  cases m with
  | idle | stay | unwritten => exact h.line ht
  | ready e => exact h.line (.inl e)
  | ackSetup => rfl
  | earlierByte e hi hj =>
    obtain ⟨_, hlt, _⟩ := hq.at_code e
    have hidx := idx_succ hlt
    have hack : s.crAck = decide (s.idx.toNat + 1 < s.reqRlen.toNat) := h.line (.inr e)
    show s.crAck = decide ((s.idx + 1).toNat + 1 < s.reqRlen.toNat)
    rw [hack, decide_eq_decide]
    omega
  | ackOff e =>
    obtain ⟨_, hi, _⟩ := hq.at_code e
    exact (decide_eq_false (show ¬s.idx.toNat + 1 < s.reqRlen.toNat by omega)).symm
  | _ => simp at ht

/-- The ACK invariant is kept by every effect of a step, together with the sequencer invariant. -/
theorem ackInv_kept : Kept (fun s => SequencerInv s ∧ AckInv s) :=
  KeptInTransaction.kept
    { view := fun _ _ h hv => h.of_view hv
      capture := fun _ _ _ _ h => ⟨h.line, by simp [h.recorded]⟩
      accepted := fun _ _ _ _ h => ⟨by simp [acceptExecute], by simp [acceptExecute, h.recorded]⟩
      reinit := fun _ h0 _ => ⟨by simp [h0], by simp⟩
      move := fun _ _ hq m h => ⟨h.line_of_move hq m, m.controlBits_eq h.recorded⟩ }

/-- Settles O47: DO_ACK_SETUP and DO_ACK_OFF set `CR_ACK` for the byte that follows, and each write is recorded. -/
theorem ackIsOffForTheLastByteOnly : Obligations.AckIsOffForTheLastByteOnly := fun _ _ hq h hstep =>
  (ackInv_kept.step ⟨hq, h⟩ hstep).2

end Sys2Proof.Machine

/-! PROOFS. EXECUTE and the micro-states, each as its whole next state (R101, R102, R110–R122). -/

namespace Sys2Proof.Machine

open Sys2Proof

/-- The comparator as R188 writes it. -/
theorem timedOut_eq_true {s : State} : timedOut s = true ↔ 0 < (s.now - s.deadline).toInt := decide_eq_true_iff

/-- One iteration of a poll without an error test, as the spec's branches (R104). -/
theorem poll_eq_ite (met : StatusWord → Bool) (advance : State → State) (s : State) :
    poll met advance s =
      if met (nextSR s) = true then advance (sampleSR s)
      else if 0 < (s.now - s.deadline).toInt then finish .timeout (sampleSR s)
      else sampleSR s := by
  simp only [poll, settle, timedOut_sampleSR, timedOut_eq_true]

/-- One iteration of a poll with an error test, as the spec's branches (R104, R211). -/
theorem pollOrFail_eq_ite (code : ResCode) (met : StatusWord → Bool) (advance : State → State) (s : State) :
    pollOrFail code met advance s =
      if (nextSR s).getLsbD 5 = true ∨ s.latchSet = true then finish code (sampleSR s)
      else if met (nextSR s) = true then advance (sampleSR s)
      else if 0 < (s.now - s.deadline).toInt then finish .timeout (sampleSR s)
      else sampleSR s := by
  rw [← poll_eq_ite]
  simp only [pollOrFail, poll, pollError, srNack, Bool.or_eq_true]

/-- The address byte is twice the address, plus 1 in the read phase (R113). -/
theorem addressByte_eq (a : Addr) (ph : Phase) :
    addressByte a ph = BitVec.ofNat 8 (2 * a.toNat + (if ph = .R then 1 else 0)) := by
  have ha := addr_lt a
  have hlow : a.toNat % 256 = a.toNat := by omega
  have hshift : a.toNat <<< 1 % 256 = 2 * a.toNat := by omega
  have hbit : 2 * a.toNat ||| 1 = 2 * a.toNat + 1 :=
    (Nat.two_pow_add_eq_or_of_lt (i := 1) (by decide) a.toNat).symm
  refine BitVec.eq_of_toNat_eq ?_
  cases ph with
  | W => simp [addressByte, rwBit]; omega
  | R => simp [addressByte, rwBit, hlow, hshift, hbit]; omega

/-- Settles O6: at `IDLE` the command is accepted, and its deadline and phase are R101's. -/
theorem executeAcceptedWhileIdle : Obligations.ExecuteAcceptedWhileIdle := by
  intro addr wlen rlen s _ hf hs
  have idle : ¬isBusy s = true := fun hb => isBusy_eq_true_iff.mp hb hs
  calc exec (.execute addr wlen rlen) s
      = .next (if isBusy s then { s with resp := .busy } else acceptExecute addr wlen rlen s) := live_safe hf _
    _ = .next (acceptExecute addr wlen rlen s) := by rw [if_neg idle]

/-- Settles O7: while a transaction runs the command writes `RESP` alone. -/
theorem executeRejectedWhileBusy : Obligations.ExecuteRejectedWhileBusy := by
  intro addr wlen rlen s hf hs
  calc exec (.execute addr wlen rlen) s
      = .next (if isBusy s then { s with resp := .busy } else acceptExecute addr wlen rlen s) := live_safe hf _
    _ = .next { s with resp := .busy } := by rw [if_pos (isBusy_eq_true_iff.mpr hs)]

/-- Settles O14: the poll leaves on a clear bus-busy bit, and has no error test. -/
theorem waitFreePollsBusBusy : Obligations.WaitFreePollsBusBusy := by
  intro s hf
  have hpoll := poll_eq_ite (fun sr => !srBusy sr) (goto Seq.doStart) s
  simp only [srBusy, Bool.not_eq_true'] at hpoll
  exact (live_safe hf _).trans (congrArg _ hpoll)

/-- Settles O15: the guard, and the START. -/
theorem doStartAssertsStart : Obligations.DoStartAssertsStart := fun _ hf => live_safe hf _

/-- Settles O16: the poll leaves on the start-acknowledged bit, and has no error test. -/
theorem waitSbPollsStart : Obligations.WaitSbPollsStart := fun s hf =>
  (live_safe hf _).trans (congrArg _ (poll_eq_ite srSb (goto Seq.doAddr) s))

/-- Settles O17: the byte sent is the address byte of the phase. -/
theorem doAddrSendsAddressByte : Obligations.DoAddrSendsAddressByte := by
  intro s hf
  rw [← addressByte_eq]
  exact live_safe hf _

/-- Where an acknowledged address leads, as the spec's branches (R114). -/
theorem addressAcknowledged_eq_ite (s : State) :
    addressAcknowledged s =
      if s.ph = .W then
        (if 0 < s.reqWlen.toNat then { s with idx := 0, seq := Seq.doTx } else finish .ok s)
      else goto Seq.doAckSetup s := by
  cases hp : s.ph <;> simp [addressAcknowledged, hp]

/-- Settles O18: the error wins, and an acknowledged address leads to the phase's bytes. -/
theorem waitAddrClassifiesAddress : Obligations.WaitAddrClassifiesAddress := by
  intro s hf
  have hpoll := pollOrFail_eq_ite .addressNack srAddr addressAcknowledged s
  rw [addressAcknowledged_eq_ite] at hpoll
  exact (live_safe hf _).trans (congrArg _ hpoll)

/-- Settles O19: inside the buffer the cell is what the buffer reads as. -/
theorem doTxSendsTheBufferByte : Obligations.DoTxSendsTheBufferByte := by
  intro s hf hi
  have hcell := cell_of_lt s.wbuf hi
  refine ⟨fun b hb => ?written, fun hb => ?unwritten⟩
  case written => simp only [exec, execDoTx, live_safe hf, hcell, hb]; rfl
  case unwritten => simp only [exec, execDoTx, live_safe hf, hcell, hb, raise_of_safe hf]

/-- Settles O21: the error wins, and a completed byte leads to the next one, the read phase, or the end. -/
theorem waitBtfAdvancesTheWrite : Obligations.WaitBtfAdvancesTheWrite := fun s hf =>
  (live_safe hf _).trans (congrArg _ (pollOrFail_eq_ite .dataNack srBtf byteTransferred s))

/-- Settles O22: the guard, and the ACK control of the first byte. -/
theorem doAckSetupSetsAck : Obligations.DoAckSetupSetsAck := fun _ hf => live_safe hf _

/-- Settles O23: the error wins, and a received byte leads to its read. -/
theorem waitRxnePollsReceive : Obligations.WaitRxnePollsReceive := fun s hf =>
  (live_safe hf _).trans (congrArg _ (pollOrFail_eq_ite .dataNack srRxne (goto Seq.doRxRead) s))

/-- Settles O24: inside the buffer the store is a write, and `IDX` does not wrap. -/
theorem doRxReadStoresTheByte : Obligations.DoRxReadStoresTheByte := by
  intro s hf hi
  have hidx := idx_succ (n := 128) hi
  simp only [exec, execDoRxRead, live_safe hf, store_of_lt s.rbuf _ hi, byteReceived, sampleDR_reqRlen, hidx]
  rfl

/-- Settles O25: the guard, and the ACK control of the last byte. -/
theorem doAckOffClearsAck : Obligations.DoAckOffClearsAck := fun _ hf => live_safe hf _

/-- Settles O26: the guard, and the STOP. -/
theorem doStopAssertsStop : Obligations.DoStopAssertsStop := fun _ hf => live_safe hf _

/-- Settles O27: the guard, and the end of the transaction. -/
theorem doErrOffPostsTheResult : Obligations.DoErrOffPostsTheResult := fun _ hf => live_safe hf _

end Sys2Proof.Machine

/-! PROOFS. The successors of a micro-state (R126). -/

namespace Sys2Proof.Machine

open Sys2Proof

/-- R126's successors of a micro-state, and for `IDLE` the model's choice (log entry 6). -/
def successors (c : BitVec 4) : List (BitVec 4) :=
  match c.toNat with
  | 0 => [0]
  | 1 => [1, 2, 12]
  | 2 => [3]
  | 3 => [3, 4, 12]
  | 4 => [5]
  | 5 => [5, 6, 8, 12]
  | 6 => [7]
  | 7 => [7, 6, 2, 12]
  | 8 => [9]
  | 9 => [9, 10, 12]
  | 10 => [9, 11, 12]
  | 11 => [9]
  | 12 => [13]
  | 13 => [0]
  | _ => []

/-- A raised fault stays on record (R205). -/
theorem raise_fault_ne_nil (r : Reason) (s : State) : (raise r s).fault ≠ [] :=
  List.ne_nil_of_mem List.mem_insert_self

/-- A move that raises no fault leads to one of the successors. -/
theorem Move.seq_mem_successors {s t : State} (m : Move s t) (hf : t.fault = []) : t.seq ∈ successors s.seq := by
  cases m with
  | unwritten => exact absurd hf (raise_fault_ne_nil _ s)
  | stay e | timeout e => rcases e with e | e | e | e | e <;> simp [successors, e]
  | dataNack e => rcases e with e | e <;> simp [successors, e]
  | idle e | free e | start e | started e | address e | addressNack e | probed e | toWrite e | toRead e | transmit e
  | nextByte e | restart e | written e | ackSetup e | ready e | lastByte e | lastButOne e | earlierByte e | ackOff e
  | stop e | post e => simp [successors, e]

/-- The ENGINE's step, where it raises no fault, is a move (R88). -/
theorem move_of_engineStep {s t : State} (h : engineStep s = .next t) (hf : t.fault = []) : Move s t := by
  obtain ⟨_, ⟨i, hi, he⟩ | ⟨_, rfl⟩⟩ := engineStep_cases h
  · exact exec_move (decodeSeq_ok hi) he
  · exact absurd hf (raise_fault_ne_nil _ s)

/-- Settles O56: the ENGINE's step is a move, which leads to a successor. -/
theorem microStatesHaveOnlyTheirSuccessors : Obligations.MicroStatesHaveOnlyTheirSuccessors := by
  intro s t hstep hf
  have hsucc := (move_of_engineStep hstep hf).seq_mem_successors hf
  refine ⟨?_, ?_, ?_, ?_, ?_, ?_, ?_, ?_, ?_, ?_, ?_, ?_, ?_, ?_⟩
  all_goals
    intro e
    simpa [successors, e] using hsucc

end Sys2Proof.Machine

/-! PROOFS. The register frame of an instruction (R100–R122, R150–R154). -/

namespace Sys2Proof.Machine

open Sys2Proof

/-- A poll does what its success does, or decides `SEQ` and `OUTCOME` alone, besides the status read (R104). -/
theorem poll_writes (met : StatusWord → Bool) (advance : State → State) (s : State) :
    poll met advance s = advance (sampleSR s) ∨
      ∃ seq outcome, poll met advance s = { sampleSR s with seq := seq, outcome := outcome } := by
  obtain ⟨_, e⟩ | ⟨_, _, e⟩ | ⟨_, _, e⟩ := poll_cases met advance s
  · exact .inl e
  · exact .inr ⟨_, _, e⟩
  · exact .inr ⟨_, _, e⟩

/-- The same of a poll with an error test. -/
theorem pollOrFail_writes (code : ResCode) (met : StatusWord → Bool) (advance : State → State) (s : State) :
    pollOrFail code met advance s = advance (sampleSR s) ∨
      ∃ seq outcome, pollOrFail code met advance s = { sampleSR s with seq := seq, outcome := outcome } := by
  obtain ⟨_, e⟩ | ⟨_, _, e⟩ | ⟨_, _, _, e⟩ | ⟨_, _, _, e⟩ := pollOrFail_cases code met advance s
  · exact .inr ⟨_, _, e⟩
  · exact .inl e
  · exact .inr ⟨_, _, e⟩
  · exact .inr ⟨_, _, e⟩

/-- An acknowledged address decides `SEQ`, `IDX` and `OUTCOME` alone (R114). -/
theorem addressAcknowledged_writes (s : State) :
    ∃ seq idx outcome, addressAcknowledged s = { s with seq := seq, idx := idx, outcome := outcome } := by
  unfold addressAcknowledged
  split
  · split <;> exact ⟨_, _, _, rfl⟩
  · exact ⟨_, _, _, rfl⟩

/-- A completed byte decides `SEQ`, `PH`, `IDX` and `OUTCOME` alone (R116). -/
theorem byteTransferred_writes (s : State) :
    ∃ seq ph idx outcome, byteTransferred s = { s with seq := seq, ph := ph, idx := idx, outcome := outcome } := by
  unfold byteTransferred
  split
  · exact ⟨_, _, _, _, rfl⟩
  · split <;> exact ⟨_, _, _, _, rfl⟩

/-- A stored byte decides `SEQ` and `OUTCOME` alone (R119). -/
theorem byteReceived_writes (s : State) :
    ∃ seq outcome, byteReceived s = { s with seq := seq, outcome := outcome } := by
  unfold byteReceived
  split
  · exact ⟨_, _, rfl⟩
  · split <;> exact ⟨_, _, rfl⟩

/-- Settles O52: the fields of each instruction's next state. -/
theorem instructionsChangeOnlyTheirRegisters : Obligations.InstructionsChangeOnlyTheirRegisters := by
  intro i s t h
  cases i with
  | execute a wl rl =>
    obtain ⟨_, rfl⟩ := execExecute_next h
    split <;> simp [acceptExecute]
  | selectPins p =>
    obtain ⟨_, rfl⟩ := execSelectPins_next h
    split <;> simp
  | setSpeed =>
    obtain ⟨_, rfl⟩ := execSetSpeed_next h
    split
    · simp
    · split <;> simp
  | idle =>
    obtain ⟨_, rfl⟩ := execIdle_next h
    simp
  | waitFree =>
    obtain ⟨_, rfl⟩ := execWaitFree_next h
    obtain e | ⟨_, _, e⟩ := poll_writes (fun sr => !srBusy sr) (goto Seq.doStart) s
    · rw [e]; simp
    · rw [e]; simp
  | doStart =>
    obtain ⟨_, rfl⟩ := execDoStart_next h
    simp
  | waitSb =>
    obtain ⟨_, rfl⟩ := execWaitSb_next h
    obtain e | ⟨_, _, e⟩ := poll_writes srSb (goto Seq.doAddr) s
    · rw [e]; simp
    · rw [e]; simp
  | doAddr =>
    obtain ⟨_, rfl⟩ := execDoAddr_next h
    simp
  | waitAddr =>
    obtain ⟨_, rfl⟩ := execWaitAddr_next h
    obtain ⟨_, _, _, ha⟩ := addressAcknowledged_writes (sampleSR s)
    obtain e | ⟨_, _, e⟩ := pollOrFail_writes .addressNack srAddr addressAcknowledged s
    · rw [e, ha]; simp
    · rw [e]; simp
  | doTx =>
    obtain ⟨_, ⟨_, rfl⟩ | ⟨_, _, rfl⟩⟩ := execDoTx_next h <;> simp
  | waitBtf =>
    obtain ⟨_, rfl⟩ := execWaitBtf_next h
    obtain ⟨_, _, _, _, hb⟩ := byteTransferred_writes (sampleSR s)
    obtain e | ⟨_, _, e⟩ := pollOrFail_writes .dataNack srBtf byteTransferred s
    · rw [e, hb]; simp
    · rw [e]; simp
  | doAckSetup =>
    obtain ⟨_, rfl⟩ := execDoAckSetup_next h
    simp
  | waitRxne =>
    obtain ⟨_, rfl⟩ := execWaitRxne_next h
    obtain e | ⟨_, _, e⟩ := pollOrFail_writes .dataNack srRxne (goto Seq.doRxRead) s
    · rw [e]; simp
    · rw [e]; simp
  | doRxRead =>
    obtain ⟨_, rfl⟩ := execDoRxRead_next h
    obtain ⟨_, _, hr⟩ := byteReceived_writes { sampleDR s with
      rbuf := Memory.store Config.maxRead s.rbuf s.idx.toNat (nextDR s), idx := s.idx + 1 }
    rw [hr]
    simp
  | doAckOff =>
    obtain ⟨_, rfl⟩ := execDoAckOff_next h
    simp
  | doStop =>
    obtain ⟨_, rfl⟩ := execDoStop_next h
    simp
  | doErrOff =>
    obtain ⟨_, rfl⟩ := execDoErrOff_next h
    simp

end Sys2Proof.Machine

/-! PROOFS. How many ENGINE steps an answered transaction takes (R124, R190). -/

namespace Sys2Proof.Machine

open Sys2Proof

/-- The DO_ACK_OFF still to come before the last of so many bytes (R119, R120). -/
def ackOffSteps (bytes : Nat) : Nat := if 2 ≤ bytes then 1 else 0

theorem ackOffSteps_of_lt {n : Nat} (h : n < 2) : ackOffSteps n = 0 := if_neg (Nat.not_le.mpr h)

theorem ackOffSteps_of_le {n : Nat} (h : 2 ≤ n) : ackOffSteps n = 1 := if_pos h

/-- The steps left once the address of the phase is acknowledged and the next micro-state entered. -/
def stepsAfterAddress (s : State) : Nat :=
  match s.ph with
  | .W => 2 * s.reqWlen.toNat + readPhaseSteps s.reqRlen.toNat + 2
  | .R => 2 * s.reqRlen.toNat + 3 + ackOffSteps s.reqRlen.toNat

/-- What `stepsLeft` says of a state whose `SEQ` holds `c`, one clause per row of R21. -/
def stepsAt (s : State) (c : BitVec 4) : Nat :=
  match c.toNat with
  | 1 => stepsAfterAddress s + 5
  | 2 => stepsAfterAddress s + 4
  | 3 => stepsAfterAddress s + 3
  | 4 => stepsAfterAddress s + 2
  | 5 => stepsAfterAddress s + 1
  | 6 => 2 * (s.reqWlen.toNat - s.idx.toNat) + readPhaseSteps s.reqRlen.toNat + 2
  | 7 => 2 * (s.reqWlen.toNat - s.idx.toNat) + readPhaseSteps s.reqRlen.toNat + 1
  | 8 => 2 * s.reqRlen.toNat + 3 + ackOffSteps s.reqRlen.toNat
  | 9 => 2 * (s.reqRlen.toNat - s.idx.toNat) + 2 + ackOffSteps (s.reqRlen.toNat - s.idx.toNat)
  | 10 => 2 * (s.reqRlen.toNat - s.idx.toNat) + 1 + ackOffSteps (s.reqRlen.toNat - s.idx.toNat)
  | 11 => 2 * (s.reqRlen.toNat - s.idx.toNat) + 3
  | 12 => 2
  | 13 => 1
  | _ => 0

/-- The measure, read off at the micro-state that `SEQ` holds. -/
theorem stepsLeft_eq_stepsAt {s : State} {c : BitVec 4} (e : s.seq = c) : stepsLeft s = stepsAt s c := by
  subst e
  rfl

/-- A read phase from its START on (R124). -/
theorem readPhaseSteps_of_pos {n : Nat} (h : 0 < n) : readPhaseSteps n = 2 * n + 5 + ackOffSteps n := by
  unfold readPhaseSteps ackOffSteps
  rw [if_pos h]
  omega

/-- Without read bytes there is none. -/
theorem readPhaseSteps_zero : readPhaseSteps 0 = 0 := rfl

/-- The ENGINE's next step raises no fault and leaves one step less to go. -/
def CountsDown (s : State) : Prop := ∃ t, engineStep s = .next t ∧ t.fault = [] ∧ stepsLeft t + 1 = stepsLeft s

/-- It does if the instruction that `SEQ` holds does. -/
theorem CountsDown.of_exec {s t : State} {c : BitVec 4} {i : Instr} (e : s.seq = c) (hd : decode (.seq c) = .ok i)
    (he : exec i s = .next t) (hf : t.fault = []) (hc : stepsAt t t.seq + 1 = stepsAt s c) : CountsDown s :=
  ⟨t, (engineStep_of_decode (e ▸ hd)).trans he, hf, by rwa [stepsLeft_eq_stepsAt rfl, stepsLeft_eq_stepsAt e]⟩

section

variable {s : State} (hf : s.fault = []) (hq : SequencerInv s) (hfav : favourable s = true)

include hf hfav in
theorem countsDown_waitFree (e : s.seq = 1) : CountsDown s := by
  have free : (nextSR s).getLsbD 0 = false := by simpa [favourable, e, srBusy] using hfav
  have hnext := waitFreePollsBusBusy s hf
  rw [if_pos free] at hnext
  exact .of_exec e rfl hnext hf rfl

include hf hfav in
theorem countsDown_waitSb (e : s.seq = 3) : CountsDown s := by
  have started : (nextSR s).getLsbD 1 = true := by simpa [favourable, e, srSb] using hfav
  have hnext := waitSbPollsStart s hf
  rw [if_pos started] at hnext
  exact .of_exec e rfl hnext hf rfl

/-- A favourable answer to a poll with an error test carries no error (R104). -/
theorem not_error_of_pollError {sr : StatusWord} (h : pollError sr s = false) :
    ¬(sr.getLsbD 5 = true ∨ s.latchSet = true) := by
  simpa [pollError, srNack] using h

include hf hq hfav in
theorem countsDown_waitAddr (e : s.seq = 5) : CountsDown s := by
  obtain ⟨noError, ack⟩ : pollError (nextSR s) s = false ∧ (nextSR s).getLsbD 2 = true := by
    simpa [favourable, e, srAddr] using hfav
  have hnext := waitAddrClassifiesAddress s hf
  rw [if_neg (not_error_of_pollError noError), if_pos ack] at hnext
  obtain ⟨_, _, probe, _⟩ := hq.at_code e
  split_ifs at hnext with hp hw
  · refine .of_exec e rfl hnext hf ?_
    simp [stepsAt, stepsAfterAddress, hp]
  · have w0 := Nat.eq_zero_of_not_pos hw
    refine .of_exec e rfl hnext hf ?_
    simp [stepsAt, stepsAfterAddress, hp, w0, probe hp w0, readPhaseSteps_zero]
  · have hR : s.ph = .R := by cases h : s.ph <;> simp_all
    refine .of_exec e rfl hnext hf ?_
    simp [stepsAt, stepsAfterAddress, hR]

include hf hfav in
theorem countsDown_doTx (e : s.seq = 6) : CountsDown s := by
  obtain ⟨b, hb⟩ : ∃ b, Memory.cell Config.maxWrite s.wbuf s.idx.toNat = some b :=
    Option.isSome_iff_exists.mp (by simpa [favourable, e] using hfav)
  obtain ⟨hi, hread⟩ := cell_eq_some.mp hb
  obtain ⟨written, _⟩ := doTxSendsTheBufferByte s hf hi
  exact .of_exec e rfl (written b hread) hf rfl

include hf hq hfav in
theorem countsDown_waitBtf (e : s.seq = 7) : CountsDown s := by
  obtain ⟨noError, sent⟩ : pollError (nextSR s) s = false ∧ (nextSR s).getLsbD 3 = true := by
    simpa [favourable, e, srBtf] using hfav
  have hnext := waitBtfAdvancesTheWrite s hf
  rw [if_neg (not_error_of_pollError noError), if_pos sent] at hnext
  obtain ⟨_, hlt, _⟩ := hq.at_code e
  have hidx := idx_succ hlt
  split_ifs at hnext with hi hr
  · refine .of_exec e rfl hnext hf ?_
    show 2 * (s.reqWlen.toNat - (s.idx + 1).toNat) + readPhaseSteps s.reqRlen.toNat + 2 + 1 =
      2 * (s.reqWlen.toNat - s.idx.toNat) + readPhaseSteps s.reqRlen.toNat + 1
    omega
  · refine .of_exec e rfl hnext hf ?_
    show 2 * s.reqRlen.toNat + 3 + ackOffSteps s.reqRlen.toNat + 4 + 1 =
      2 * (s.reqWlen.toNat - s.idx.toNat) + readPhaseSteps s.reqRlen.toNat + 1
    rw [readPhaseSteps_of_pos hr]
    omega
  · refine .of_exec e rfl hnext hf ?_
    show 2 + 1 = 2 * (s.reqWlen.toNat - s.idx.toNat) + readPhaseSteps s.reqRlen.toNat + 1
    rw [Nat.eq_zero_of_not_pos hr, readPhaseSteps_zero]
    omega

include hf hfav in
theorem countsDown_waitRxne (e : s.seq = 9) : CountsDown s := by
  obtain ⟨noError, ready⟩ : pollError (nextSR s) s = false ∧ (nextSR s).getLsbD 4 = true := by
    simpa [favourable, e, srRxne] using hfav
  have hnext := waitRxnePollsReceive s hf
  rw [if_neg (not_error_of_pollError noError), if_pos ready] at hnext
  exact .of_exec e rfl hnext hf (Nat.add_right_comm _ _ _)

include hf hq in
theorem countsDown_doRxRead (e : s.seq = 10) : CountsDown s := by
  obtain ⟨_, hlt, _⟩ := hq.at_code e
  have hidx := idx_succ hlt
  have hnext := doRxReadStoresTheByte s hf (hlt.trans_le hq.rlen)
  split_ifs at hnext with hi hj
  · refine .of_exec e rfl hnext hf ?_
    show 2 + 1 = 2 * (s.reqRlen.toNat - s.idx.toNat) + 1 + ackOffSteps (s.reqRlen.toNat - s.idx.toNat)
    rw [ackOffSteps_of_lt (by omega)]
    omega
  · refine .of_exec e rfl hnext hf ?_
    show 2 * (s.reqRlen.toNat - (s.idx + 1).toNat) + 3 + 1 =
      2 * (s.reqRlen.toNat - s.idx.toNat) + 1 + ackOffSteps (s.reqRlen.toNat - s.idx.toNat)
    rw [ackOffSteps_of_le (by omega)]
    omega
  · refine .of_exec e rfl hnext hf ?_
    show 2 * (s.reqRlen.toNat - (s.idx + 1).toNat) + 2 + ackOffSteps (s.reqRlen.toNat - (s.idx + 1).toNat) + 1 =
      2 * (s.reqRlen.toNat - s.idx.toNat) + 1 + ackOffSteps (s.reqRlen.toNat - s.idx.toNat)
    rw [ackOffSteps_of_le (by omega), ackOffSteps_of_le (by omega)]
    omega

include hf hq in
theorem countsDown_doAckOff (e : s.seq = 11) : CountsDown s := by
  obtain ⟨_, hi, _⟩ := hq.at_code e
  refine .of_exec e rfl (doAckOffClearsAck s hf) hf ?_
  show 2 * (s.reqRlen.toNat - s.idx.toNat) + 2 + ackOffSteps (s.reqRlen.toNat - s.idx.toNat) + 1 =
    2 * (s.reqRlen.toNat - s.idx.toNat) + 3
  rw [ackOffSteps_of_lt (by omega)]

include hf hq hfav in
/-- A step whose poll is answered with its condition met, or whose write byte is written, brings the end one step
nearer. -/
theorem countsDown (hs : s.seq ≠ 0) : CountsDown s := by
  rcases seq_cases s.seq with e | e | e | e | e | e | e | e | e | e | e | e | e | e | e | e
  · exact absurd e hs
  · exact countsDown_waitFree hf hfav e
  · exact .of_exec e rfl (doStartAssertsStart s hf) hf rfl
  · exact countsDown_waitSb hf hfav e
  · exact .of_exec e rfl (doAddrSendsAddressByte s hf) hf rfl
  · exact countsDown_waitAddr hf hq hfav e
  · exact countsDown_doTx hf hfav e
  · exact countsDown_waitBtf hf hq hfav e
  · exact .of_exec e rfl (doAckSetupSetsAck s hf) hf (Nat.add_right_comm _ _ _)
  · exact countsDown_waitRxne hf hfav e
  · exact countsDown_doRxRead hf hq e
  · exact countsDown_doAckOff hf hq e
  · exact .of_exec e rfl (doStopAssertsStop s hf) hf rfl
  · exact .of_exec e rfl (doErrOffPostsTheResult s hf) hf rfl
  · exact absurd hq.code (by simp [e])
  · exact absurd hq.code (by simp [e])

end

/-- After the accept the measure is `S_min` (R106, R124). -/
theorem stepsLeft_accept (a : Addr) (wl rl : BitVec 8) (s : State) :
    stepsLeft (acceptExecute a wl rl s) = minSteps wl.toNat rl.toNat := by
  rw [stepsLeft_eq_stepsAt (c := 1) rfl]
  unfold minSteps
  show stepsAfterAddress (acceptExecute a wl rl s) + 5 = _
  cases hp : firstPhase wl rl with
  | W =>
    have hafter : stepsAfterAddress (acceptExecute a wl rl s) = 2 * wl.toNat + readPhaseSteps rl.toNat + 2 := by
      simp [stepsAfterAddress, acceptExecute, hp]
    rw [hafter, if_pos (firstPhase_eq_W.mp hp)]
    omega
  | R =>
    have hafter : stepsAfterAddress (acceptExecute a wl rl s) = 2 * rl.toNat + 3 + ackOffSteps rl.toNat := by
      simp [stepsAfterAddress, acceptExecute, hp]
    obtain ⟨w0, hr⟩ := firstPhase_eq_R.mp hp
    rw [hafter, if_neg (by omega), readPhaseSteps_of_pos hr]
    omega

/-- Within the bounds of a request `S_min` is at most 517 (R190). -/
theorem minSteps_le {wl rl : Nat} (hw : wl ≤ 124) (hr : rl ≤ 128) : minSteps wl rl ≤ 517 := by
  unfold minSteps readPhaseSteps
  split_ifs <;> omega

/-- Settles O58: the accept sets the measure to `S_min`, and each answered step takes one off. -/
theorem answeredStepsCountDownFromSMin : Obligations.AnsweredStepsCountDownFromSMin := by
  refine ⟨fun addr wlen rlen s t hf hs hwf hstep => ?accepted, fun s hf hq hs hfav => countsDown hf hq hfav hs⟩
  case accepted =>
    have haccept : Host.Outcome.next (acceptExecute addr wlen rlen s) = .next t :=
      (executeAcceptedWhileIdle addr wlen rlen s hwf hf hs).symm.trans hstep
    obtain rfl : acceptExecute addr wlen rlen s = t := by injection haccept
    obtain ⟨hw, hr⟩ := (wellFormed_execute addr wlen rlen).mp hwf
    have hsteps := stepsLeft_accept addr wlen rlen s
    exact ⟨hsteps, hsteps ▸ minSteps_le hw hr⟩

end Sys2Proof.Machine

/-! PROOFS. The configuration commands, each as its whole next state (R150–R154). -/

namespace Sys2Proof.Machine

open Sys2Proof

/-- The selected pair is open-drain (R41). -/
theorem pinMode_selected {s : State} {p : Pin} (h : p = s.pin) : pinMode s p = .afOpenDrain := if_pos h

/-- The other pair is plain input (R41, R152). -/
theorem pinMode_unselected {s : State} {p : Pin} (h : p ≠ s.pin) : pinMode s p = .input := if_neg h

section

variable {s : State} (hf : s.fault = [])

include hf in
/-- What SELECT_PINS answers without a fault before it (R150, R151). -/
theorem exec_selectPins_eq_ite (p : Pin) :
    exec (.selectPins p) s = .next (if s.seq ≠ 0 then { s with fault := [.configWhileActive] }
      else { reinit { s with pin := p } with resp := .ok }) := by
  have hguard : exec (.selectPins p) s = .next (if isBusy s then raise .configWhileActive s
      else { reinit { s with pin := p } with resp := .ok }) := live_safe hf _
  simpa only [isBusy_eq_true_iff, raise_of_safe hf] using hguard

include hf in
/-- What SET_SPEED answers without a fault before it: the ceiling is tested at `IDLE` only (R150, R153, R154). -/
theorem exec_setSpeed_eq_ite :
    exec .setSpeed s = .next (if s.seq ≠ 0 then { s with fault := [.configWhileActive] }
      else if 400000 < s.speedArg.toNat then { s with resp := .configError }
      else { reinit { s with hz := s.speedArg } with resp := .ok }) := by
  have hguard : exec .setSpeed s = .next (if isBusy s then raise .configWhileActive s
      else if 400000 < s.speedArg.toNat then { s with resp := .configError }
      else { reinit { s with hz := s.speedArg } with resp := .ok }) := live_safe hf _
  simpa only [isBusy_eq_true_iff, raise_of_safe hf] using hguard

end

/-- Settles O8: at `IDLE` the pair is written before the reinit, which records it. -/
theorem selectPinsAcceptedWhileIdle : Obligations.SelectPinsAcceptedWhileIdle := by
  intro p s hf hs
  have hnext := exec_selectPins_eq_ite hf p
  rw [if_neg (not_not_intro hs)] at hnext
  exact ⟨_, hnext, rfl, pinMode_selected rfl, fun _ hq => pinMode_unselected hq⟩

/-- Settles O9: the test is `hz > 400000`, so the ceiling itself is accepted. -/
theorem setSpeedAcceptedUpToCeiling : Obligations.SetSpeedAcceptedUpToCeiling := by
  intro s hf hs hle
  have hnext := exec_setSpeed_eq_ite hf
  rwa [if_neg (not_not_intro hs), if_neg (Nat.not_lt.mpr hle)] at hnext

/-- Settles O10: above the ceiling `RESP` alone is written. -/
theorem setSpeedRejectedAboveCeiling : Obligations.SetSpeedRejectedAboveCeiling := by
  intro s hf hs hlt
  have hnext := exec_setSpeed_eq_ite hf
  rwa [if_neg (not_not_intro hs), if_pos hlt] at hnext

/-- Settles O11: the test of `SEQ` comes first in both commands, before `SPEED_ARG` is read. -/
theorem configurationWhileActiveFaults : Obligations.ConfigurationWhileActiveFaults := by
  intro p s hf hs
  have hpins := exec_selectPins_eq_ite hf p
  have hspeed := exec_setSpeed_eq_ite hf
  rw [if_pos hs] at hpins hspeed
  exact ⟨hpins, hspeed⟩

end Sys2Proof.Machine

/-! PROOFS. The error latch: one capture in a transaction, a capture only while it is enabled, and bits that nothing reads
(R171–R174, R178). -/

namespace Sys2Proof.Machine

open Sys2Proof

/-- The latch invariant passes on where no capture is recorded, `LATCH_SET` is left alone and the interrupt is not
enabled. -/
theorem LatchInv.of_eq {s t : State} (h : LatchInv s) (hcap : captures t.hist = captures s.hist)
    (hset : t.latchSet = s.latchSet) (hon : t.crErrie = true → s.crErrie = true) : LatchInv t where
  armed ht := hcap.trans (h.armed (hon ht))
  once := hcap.trans_le h.once
  flag := by rw [hset, hcap, h.flag]

/-- A move of the sequencer records no capture, does not write the latch and does not enable the interrupt (R34, R174). -/
theorem Move.latch_frame {s t : State} (m : Move s t) :
    captures t.hist = captures s.hist ∧ t.latchSet = s.latchSet ∧ (t.crErrie = true → s.crErrie = true) := by
  cases m <;> simp [Event.isAccept, Event.isErrlatch]

/-- The reinit disables the interrupt and leaves the latch as it is (R156, R174). -/
theorem LatchInv.reinit {s : State} (h : LatchInv s) : LatchInv (Machine.reinit s) :=
  h.of_eq (by simp [Event.isAccept, Event.isErrlatch]) rfl nofun

/-- A capture needs the interrupt enabled, so it is the first of its transaction, and it disables the interrupt (R171,
R173). -/
theorem LatchInv.capture {s : State} (h : LatchInv s) (hc : s.crErrie = true) (bits : LatchWord) :
    LatchInv (captureError bits s) := by
  have first : captures (captureError bits s).hist = 1 := by
    simp [Event.isAccept, Event.isErrlatch, h.armed hc]
  exact ⟨nofun, first.le, (decide_eq_true first).symm⟩

/-- An accept opens a transaction without a capture and clears the latch (R101, R174). -/
theorem latchInv_accept (a : Addr) (wl rl : BitVec 8) (s : State) : LatchInv (acceptExecute a wl rl s) := by
  have none_yet : captures (acceptExecute a wl rl s).hist = 0 := by
    simp [acceptExecute, Event.isAccept, Event.isErrlatch]
  exact ⟨fun _ => none_yet, by omega, (decide_eq_false (by omega)).symm⟩

/-- Every effect of a step keeps the latch invariant. -/
theorem latchInv_kept : Kept LatchInv where
  env _ _ _ _ _ h := h.of_eq rfl rfl id
  raised _ _ h := h.of_eq rfl rfl id
  read _ _ h := h.of_eq rfl rfl id
  speedArg _ _ h := h.of_eq rfl rfl id
  bufferWrite _ _ _ _ _ h := h.of_eq rfl rfl id
  tick _ h := h.of_eq rfl rfl id
  capture bits _ hc h := h.capture hc bits
  rejected _ _ h := h.of_eq rfl rfl id
  accepted a wl rl s _ _ _ _ := latchInv_accept a wl rl s
  pins p s _ h := (show LatchInv { s with pin := p } from h.of_eq rfl rfl id).reinit.of_eq rfl rfl id
  tooFast _ _ h := h.of_eq rfl rfl id
  speed s _ _ h := (show LatchInv { s with hz := s.speedArg } from h.of_eq rfl rfl id).reinit.of_eq rfl rfl id
  move _ _ m h := by
    obtain ⟨hcap, hset, hon⟩ := m.latch_frame
    exact h.of_eq hcap hset hon

/-- Settles O49: a capture disables the interrupt, and only the accept enables it, which clears the latch. -/
theorem errorIsCapturedAtMostOnce : Obligations.ErrorIsCapturedAtMostOnce := fun _ _ h hstep =>
  latchInv_kept.step h hstep

/-- Settles O32: the turn taken off, the handler's guard and its test of `CR_ERRIE` are left. -/
theorem busErrorIsCapturedOnlyWhileEnabled : Obligations.BusErrorIsCapturedOnlyWhileEnabled := by
  intro s bits hf hturn
  rw [step, oneStep, hturn]
  exact live_safe hf _

/-- The state with other captured bits. -/
def State.withBits (s : State) (b : LatchWord) : State := { s with latchBits := b }

/-- An update of the state that carries `LATCH_BITS` through: it neither reads nor writes them. -/
def CarriesBits (f : State → State) : Prop := ∀ s b, f (s.withBits b) = (f s).withBits b

/-- Other bits are passed into both branches of a test. -/
theorem withBits_ite (c : Prop) [Decidable c] (s t : State) (b : LatchWord) :
    (if c then s else t).withBits b = if c then s.withBits b else t.withBits b :=
  apply_ite (State.withBits · b) c s t

/-- A poll tests the status word and the clock, so it reads the bits only if its success does (R104). -/
theorem CarriesBits.poll {met : StatusWord → Bool} {advance : State → State} (h : CarriesBits advance) :
    CarriesBits (poll met advance) := by
  intro s b
  simp only [Machine.poll, settle, withBits_ite, ← h (sampleSR s) b]
  rfl

/-- The error test of a poll reads `LATCH_SET`, not the bits (R175). -/
theorem CarriesBits.pollOrFail {code : ResCode} {met : StatusWord → Bool} {advance : State → State}
    (h : CarriesBits advance) : CarriesBits (pollOrFail code met advance) := by
  intro s b
  simp only [Machine.pollOrFail, settle, withBits_ite, ← h (sampleSR s) b]
  rfl

theorem carriesBits_addressAcknowledged : CarriesBits addressAcknowledged := by
  intro s b
  simp only [addressAcknowledged_eq_ite, withBits_ite]
  rfl

theorem carriesBits_byteTransferred : CarriesBits byteTransferred := by
  intro s b
  rw [byteTransferred, byteTransferred, withBits_ite, withBits_ite]
  rfl

theorem carriesBits_byteReceived : CarriesBits byteReceived := by
  intro s b
  rw [byteReceived, byteReceived, withBits_ite, withBits_ite]
  rfl

/-- The first answer is the second one, but for `LATCH_BITS` of its next state. -/
def SameButBits (x y : Host.Outcome State Fault Refusal) : Prop := ∃ b, x = onNext (·.withBits b) y

/-- The guard does not look at the bits. -/
theorem SameButBits.live {s : State} {b : LatchWord} {x y : Host.Outcome State Fault Refusal} (h : SameButBits x y) :
    SameButBits (live (s.withBits b) x) (live s y) := by
  obtain ⟨c, rfl⟩ := h
  exact ⟨c, (onNext_live_withHist (·.withBits c) s s.hist y).symm⟩

/-- Nor does it for an action that is one next state. -/
theorem SameButBits.live_next {s t u : State} {b c : LatchWord} (h : u = t.withBits c) :
    SameButBits (Machine.live (s.withBits b) (.next u)) (Machine.live s (.next t)) :=
  SameButBits.live ⟨c, congrArg Host.Outcome.next h⟩

/-- Every instruction carries the bits through but an accepted EXECUTE, which clears them (R174). -/
theorem exec_withBits (i : Instr) (s : State) (b : LatchWord) : SameButBits (exec i (s.withBits b)) (exec i s) := by
  cases i with
  | execute a wl rl =>
    refine SameButBits.live ?_
    show SameButBits (.next (if isBusy s then _ else _)) (.next (if isBusy s then _ else _))
    cases isBusy s with
    | true => exact ⟨b, rfl⟩
    | false => exact ⟨0, rfl⟩
  | selectPins =>
    refine SameButBits.live_next (c := b) ?_
    rw [withBits_ite]
    rfl
  | setSpeed =>
    refine SameButBits.live_next (c := b) ?_
    rw [withBits_ite, withBits_ite]
    rfl
  | waitFree => exact .live_next (CarriesBits.poll (fun _ _ => rfl) s b)
  | waitSb => exact .live_next (CarriesBits.poll (fun _ _ => rfl) s b)
  | waitAddr => exact .live_next (carriesBits_addressAcknowledged.pollOrFail s b)
  | waitBtf => exact .live_next (carriesBits_byteTransferred.pollOrFail s b)
  | waitRxne => exact .live_next (CarriesBits.pollOrFail (fun _ _ => rfl) s b)
  | doTx =>
    refine SameButBits.live_next (c := b) ?_
    show (match Memory.cell Config.maxWrite s.wbuf s.idx.toNat with | none => _ | some _ => _) = _
    cases Memory.cell Config.maxWrite s.wbuf s.idx.toNat <;> rfl
  | doRxRead =>
    exact .live_next (carriesBits_byteReceived { sampleDR s with
      rbuf := Memory.store Config.maxRead s.rbuf s.idx.toNat (nextDR s), idx := s.idx + 1 } b)
  | _ => exact .live ⟨b, rfl⟩

/-- No register shows the bits (R178). -/
theorem hostRead_withBits (r : HostReg) (s : State) (b : LatchWord) : hostRead r (s.withBits b) = hostRead r s := by
  cases r <;> rfl

/-- Among HOST's writes only a command can write the bits (R61, R174). -/
theorem hostWrite_withBits (r : HostReg) (v : Word) (s : State) (b : LatchWord) :
    SameButBits (hostWrite r v (s.withBits b)) (hostWrite r v s) := by
  cases r with
  | cmd =>
    simp only [hostWrite, issue]
    split
    · exact exec_withBits _ s b
    · exact ⟨b, rfl⟩
  | wbuf i =>
    refine ⟨b, congrArg Host.Outcome.next ?_⟩
    simp only [wbufWrite, withBits_ite]
    rfl
  | _ => exact ⟨b, rfl⟩

/-- No agent's step reads the bits; the handler's capture overwrites them. -/
theorem agentStep_withBits (turn : Turn) (s : State) (b : LatchWord) :
    SameButBits (agentStep turn (s.withBits b)) (agentStep turn s) := by
  cases turn with
  | tick => exact SameButBits.live ⟨b, rfl⟩
  | busError bits =>
    refine SameButBits.live ?_
    show SameButBits (.next (if s.crErrie then _ else _)) (.next (if s.crErrie then _ else _))
    cases s.crErrie with
    | true => exact ⟨bits, rfl⟩
    | false => exact ⟨b, rfl⟩
  | engine =>
    refine SameButBits.live ?_
    show SameButBits (match decode (.seq s.seq) with | .ok i => exec i (s.withBits b) | .rejected _ => _) _
    cases decode (.seq s.seq) with
    | ok i => exact exec_withBits i s b
    | rejected => exact ⟨b, rfl⟩
  | host access =>
    refine SameButBits.live ?_
    cases access with
    | read off width =>
      dsimp only
      split
      · exact ⟨b, rfl⟩
      · next r _ =>
        rw [hostRead_withBits]
        split <;> exact ⟨b, rfl⟩
    | write off width v =>
      dsimp only
      split
      · exact ⟨b, rfl⟩
      · exact hostWrite_withBits _ v s b

/-- Settles O55: two steps that differ in the bits answer the same but for them. -/
theorem latchBitsAreNeverRead : Obligations.LatchBitsAreNeverRead := by
  intro s b
  obtain ⟨c, hc⟩ := agentStep_withBits (nextTurn s) (takeTurn s) b
  calc onNext (·.withBits 0) (agentStep (nextTurn s) ((takeTurn s).withBits b))
    _ = onNext (·.withBits 0) (onNext (·.withBits c) (step s)) := congrArg _ hc
    _ = onNext (·.withBits 0) (step s) := by cases step s <;> rfl

end Sys2Proof.Machine

/-! PROOFS. The clock and its deadline: what advances `NOW`, and when the deadline has passed (R37, R185, R188, R189). -/

namespace Sys2Proof.Machine

open Sys2Proof

/-- No instruction changes `NOW`. -/
theorem exec_now {i : Instr} {s t : State} (h : exec i s = .next t) : t.now = s.now := by
  obtain ⟨⟨hnow, _⟩, _⟩ := instructionsChangeOnlyTheirRegisters i s t h
  exact hnow

/-- `NOW` is TICK's alone (R37). -/
theorem agentStep_now {turn : Turn} {s t : State} (h : agentStep turn s = .next t) (hne : turn ≠ .tick) :
    t.now = s.now := by
  obtain ⟨_, h⟩ := agentStep_cases h
  rcases h with ⟨_, rfl⟩ | ⟨_, rfl⟩ | ⟨_, rfl⟩ | ⟨_, _, _, _, rfl⟩ | rfl | ⟨ht, _⟩ | ⟨_, _, _, rfl⟩ |
    ⟨_, _, _, he⟩ | ⟨_, _, _, he⟩
  · rfl
  · rfl
  · rfl
  · rfl
  · rfl
  · exact absurd ht hne
  · rfl
  · exact exec_now he
  · exact exec_now he

/-- Settles O31: TICK's step is behind the guard alone, and every other agent's leaves `NOW` as it was. -/
theorem onlyTickAdvancesNow : Obligations.OnlyTickAdvancesNow := by
  refine ⟨fun s hf hturn => ?tick, fun s t hstep hne => ?other⟩
  case tick => exact (step_eq_agentStep hturn).trans (live_safe hf _)
  case other => exact (agentStep_now (agentStep_of_step hstep) hne).trans (takeTurn_now s)

/-- Settles O57: measured from the accept, the comparator's window begins one tick after `TIMEOUT_MS` and is `2^31 - 1`
ticks long. -/
theorem deadlinePassesInItsWindow : Obligations.DeadlinePassesInItsWindow := by
  intro s now0 hdl
  have hlt := tick_lt (s.now - now0)
  have hdiff : (s.now - s.deadline).toNat = (2 ^ 32 - 50 + (s.now - now0).toNat) % 2 ^ 32 := by
    rw [hdl, ← BitVec.sub_sub, BitVec.toNat_sub (s.now - now0)]
    rfl
  rw [timedOut_iff, hdiff]
  omega

end Sys2Proof.Machine

/-! PROOFS. The watchdog on one transaction: once the deadline has passed, every ENGINE step brings the end nearer, or
faults on an unwritten byte (R104, R190). -/

namespace Sys2Proof.Machine

open Sys2Proof

/-- A micro-state that has a code of R21 runs and makes one of the moves. -/
theorem engineStep_moves {s : State} (hf : s.fault = []) (hq : SequencerInv s) :
    ∃ t, engineStep s = .next t ∧ Move s t := by
  have hcode : ∀ c : BitVec 4, c.toNat < 14 → (decodeSeq c).instr?.isSome = true := by decide
  obtain ⟨i, hi⟩ : ∃ i, decode (.seq s.seq) = .ok i := by
    have := hcode s.seq hq.code
    cases hd : decode (.seq s.seq) with
    | ok i => exact ⟨i, rfl⟩
    | rejected why => simp_all [decode, Decoded.instr?]
  obtain ⟨t, ht⟩ := noInstructionStopsWithoutAFault i s hf
  exact ⟨t, (engineStep_of_decode hi).trans ht, exec_move (decodeSeq_ok hi) ht⟩

/-- A move changes neither side of the comparator (R37, R26). -/
theorem Move.clock_eq {s t : State} (m : Move s t) : t.now = s.now ∧ t.deadline = s.deadline := by
  cases m <;> exact ⟨rfl, rfl⟩

/-- So the deadline has passed after a move exactly if it had before. -/
theorem Move.timedOut_eq {s t : State} (m : Move s t) : timedOut t = timedOut s := by
  obtain ⟨enow, edl⟩ := m.clock_eq
  rw [timedOut, enow, edl, timedOut]

/-- What the ENGINE's step can do where the BUS does not answer the poll with its condition met and no error, or where
the byte to send is not written: stay before the deadline, abort, or fault. -/
inductive Unanswered (s : State) : State → Prop where
  | stays (early : timedOut s = false) : Unanswered s (sampleSR s)
  | aborts (code : ResCode) : Unanswered s (finish code (sampleSR s))
  | faults : Unanswered s (raise .wbufUnwritten s)

/-- A poll whose condition is not met (R104). -/
theorem Unanswered.poll {met : StatusWord → Bool} {s : State} (h : met (nextSR s) = false)
    (advance : State → State) : Unanswered s (poll met advance s) := by
  obtain ⟨hm, _⟩ | ⟨_, _, e⟩ | ⟨_, early, e⟩ := poll_cases met advance s
  · simp [h] at hm
  · exact e ▸ .aborts .timeout
  · exact e ▸ .stays early

/-- A poll that meets an error, or whose condition is not met (R104, R211). -/
theorem Unanswered.pollOrFail {met : StatusWord → Bool} {s : State}
    (h : (!pollError (nextSR s) s && met (nextSR s)) = false) (code : ResCode) (advance : State → State) :
    Unanswered s (pollOrFail code met advance s) := by
  obtain ⟨_, e⟩ | ⟨he, hm, _⟩ | ⟨_, _, _, e⟩ | ⟨_, _, early, e⟩ := pollOrFail_cases code met advance s
  · exact e ▸ .aborts code
  · simp [he, hm] at h
  · exact e ▸ .aborts .timeout
  · exact e ▸ .stays early

/-- Only a poll and DO_TX ask anything of the BUS or of the write buffer (R105, R115). -/
theorem seq_of_not_favourable {s : State} (h : favourable s = false) :
    s.seq = 1 ∨ s.seq = 3 ∨ s.seq = 5 ∨ s.seq = 6 ∨ s.seq = 7 ∨ s.seq = 9 := by
  rcases seq_cases s.seq with e | e | e | e | e | e | e | e | e | e | e | e | e | e | e | e <;>
    simp_all [favourable]

/-- The ENGINE's step, micro-state by micro-state, where it is not answered. -/
theorem Unanswered.of_engineStep {s t : State} (hfav : favourable s = false) (h : engineStep s = .next t) :
    Unanswered s t := by
  have run {c : BitVec 4} (i : Instr) (e : s.seq = c) (hd : decode (.seq c) = .ok i) : exec i s = .next t :=
    (engineStep_of_decode (e ▸ hd)).symm.trans h
  rcases seq_of_not_favourable hfav with e | e | e | e | e | e
  · obtain ⟨_, rfl⟩ := execWaitFree_next (run .waitFree e rfl)
    exact .poll (by simpa [favourable, e] using hfav) _
  · obtain ⟨_, rfl⟩ := execWaitSb_next (run .waitSb e rfl)
    exact .poll (by simpa [favourable, e] using hfav) _
  · obtain ⟨_, rfl⟩ := execWaitAddr_next (run .waitAddr e rfl)
    exact .pollOrFail (by simpa [favourable, e] using hfav) _ _
  · obtain ⟨_, ⟨_, rfl⟩ | ⟨b, hb, _⟩⟩ := execDoTx_next (run .doTx e rfl)
    · exact .faults
    · simp [favourable, e, hb] at hfav
  · obtain ⟨_, rfl⟩ := execWaitBtf_next (run .waitBtf e rfl)
    exact .pollOrFail (by simpa [favourable, e] using hfav) _ _
  · obtain ⟨_, rfl⟩ := execWaitRxne_next (run .waitRxne e rfl)
    exact .pollOrFail (by simpa [favourable, e] using hfav) _ _

/-- At most one DO_ACK_OFF is to come (R119). -/
theorem ackOffSteps_le (n : Nat) : ackOffSteps n ≤ 1 := by
  unfold ackOffSteps
  split <;> omega

/-- The longest read phase (R27, R124). -/
theorem readPhaseSteps_le {n : Nat} (h : n ≤ 128) : readPhaseSteps n ≤ 262 := by
  unfold readPhaseSteps
  split_ifs <;> omega

/-- Every transaction the request's bounds allow has at most 517 micro-states to visit (R190). -/
theorem stepsLeft_le {s : State} (hq : SequencerInv s) : stepsLeft s ≤ 517 := by
  have hw : s.reqWlen.toNat ≤ 124 := hq.wlen
  have hr : s.reqRlen.toNat ≤ 128 := hq.rlen
  have hread := readPhaseSteps_le hr
  have hack := ackOffSteps_le s.reqRlen.toNat
  have hleft := ackOffSteps_le (s.reqRlen.toNat - s.idx.toNat)
  have hafter : stepsAfterAddress s ≤ 512 := by
    unfold stepsAfterAddress
    split <;> omega
  rw [stepsLeft_eq_stepsAt rfl, stepsAt]
  split <;> omega

/-- Before DO_STOP more than the two micro-states of the return path are left (R49, R216). -/
theorem two_lt_stepsLeft {s : State} (hq : SequencerInv s) (h1 : 1 ≤ s.seq.toNat) (h11 : s.seq.toNat ≤ 11) :
    2 < stepsLeft s := by
  have hafter : 2 ≤ stepsAfterAddress s := by
    unfold stepsAfterAddress
    split <;> omega
  have hwrite : s.seq.toNat = 6 ∨ s.seq.toNat = 7 → s.idx.toNat < s.reqWlen.toNat := fun h =>
    (hq.writing (by simpa [← BitVec.toNat_inj] using h)).2
  have hread : s.seq.toNat = 9 ∨ s.seq.toNat = 10 → s.idx.toNat < s.reqRlen.toNat := fun h => by
    obtain ⟨_, _, hlt⟩ := hq.reading (by simp [← BitVec.toNat_inj]; omega)
    exact hlt
  rw [stepsLeft_eq_stepsAt rfl]
  interval_cases e : s.seq.toNat <;> simp only [stepsAt, e] <;> omega

/-- The end is nearer after an ENGINE step of a running transaction, unless it stays in a poll before the deadline or
faults on a byte that HOST never wrote (R190). -/
theorem engineStep_progress {s t : State} (hf : s.fault = []) (hq : SequencerInv s) (hs : s.seq ≠ 0)
    (h : engineStep s = .next t) :
    (timedOut s = false ∧ t = sampleSR s) ∨ (0 < stepsLeft s ∧ t = raise .wbufUnwritten s) ∨
      (t.fault = [] ∧ stepsLeft t < stepsLeft s) := by
  cases hfav : favourable s with
  | true =>
    obtain ⟨u, hu, huf, hcount⟩ := countsDown hf hq hfav hs
    obtain rfl : u = t := by simpa [hu] using h
    exact .inr (.inr ⟨huf, by omega⟩)
  | false =>
    have htwo : 2 < stepsLeft s := by
      refine two_lt_stepsLeft hq ?_ ?_ <;>
        rcases seq_of_not_favourable hfav with e | e | e | e | e | e <;> simp [e]
    cases Unanswered.of_engineStep hfav h with
    | stays early => exact .inl ⟨early, rfl⟩
    | aborts code => exact .inr (.inr ⟨hf, htwo⟩)
    | faults => exact .inr (.inl ⟨Nat.zero_lt_of_lt htwo, rfl⟩)

/-- Once the deadline has passed no poll stays, so the measure bounds the ENGINE steps in a row to the end or to the
fault. -/
theorem engineRun_ends {s : State} (hf : s.fault = []) (hq : SequencerInv s) (late : timedOut s = true) :
    ∃ n t, n ≤ stepsLeft s ∧ engineRun n s = .next t ∧ (t.seq = 0 ∨ t.fault = [.wbufUnwritten]) := by
  induction hk : stepsLeft s using Nat.strong_induction_on generalizing s with
  | _ k ih =>
    by_cases hs : s.seq = 0
    · exact ⟨0, s, Nat.zero_le k, rfl, .inl hs⟩
    obtain ⟨u, hu, m⟩ := engineStep_moves hf hq
    have hrun (n : Nat) : engineRun (n + 1) s = engineRun n u := by simp only [engineRun, hu]
    obtain ⟨early, _⟩ | ⟨hpos, rfl⟩ | ⟨huf, hlt⟩ := engineStep_progress hf hq hs hu
    · simp [late] at early
    · exact ⟨1, _, hk ▸ hpos, hrun 0, .inr (congrArg State.fault (raise_of_safe hf _))⟩
    · have hqu := sequencerInv_kept.move s u m hq
      obtain ⟨n, t, hn, ht, hend⟩ := ih _ (hk ▸ hlt) huf hqu (m.timedOut_eq ▸ late) rfl
      exact ⟨n + 1, t, by omega, (hrun n).trans ht, hend⟩

/-- Settles O59: at most 517 micro-states are left, and each ENGINE step leaves fewer. -/
theorem expiredTransactionEndsOrFaults : Obligations.ExpiredTransactionEndsOrFaults := by
  intro s hf hq late
  obtain ⟨n, t, hn, ht, hend⟩ := engineRun_ends hf hq late
  exact ⟨n, t, hn.trans (stepsLeft_le hq), ht, hend⟩

end Sys2Proof.Machine

/-! PROOFS. The watchdog on a fair run: a transaction that goes on is polled after its deadline, again and again, until
it ends (R189, R190). -/

namespace Sys2Proof.Machine

open Sys2Proof

/-- While a transaction runs its deadline stays, and `NOW` counts the TICK steps (R26, R37). -/
theorem Moves.clock {turn : Turn} {s t : State} (h : Moves turn s t) (hb : isBusy s = true) (ht : t.Safe) :
    t.deadline = s.deadline ∧ t.now = s.now + (if turn = .tick then 1 else 0) := by
  by_cases he : turn = .engine
  · subst he
    obtain ⟨agenda, srIn, drIn, draws, h⟩ := h
    obtain ⟨enow, edl⟩ := (move_of_engineStep h ht).clock_eq
    exact ⟨edl, by simpa [State.withEnv] using enow⟩
  · obtain ⟨_, _, _, _, _, edl, enow⟩ := h.busy he hb
    exact ⟨edl, enow⟩

/-- While a transaction runs no move brings its end further away, and an ENGINE step after the deadline brings it
nearer. -/
theorem Moves.stepsLeft_progress {turn : Turn} {s t : State} (h : Moves turn s t) (hq : SequencerInv s)
    (hb : isBusy s = true) (ht : t.Safe) :
    stepsLeft t ≤ stepsLeft s ∧ (turn = .engine → timedOut s = true → stepsLeft t < stepsLeft s) := by
  have hs : s.seq ≠ 0 := isBusy_eq_true_iff.mp hb
  by_cases he : turn = .engine
  · subst he
    have hf := h.safe
    obtain ⟨agenda, srIn, drIn, draws, h⟩ := h
    have hq' := sequencerInv_kept.env s agenda srIn drIn draws hq
    have hprogress := engineStep_progress (s := s.withEnv agenda srIn drIn draws) hf hq' hs h
    obtain ⟨early, rfl⟩ | ⟨_, rfl⟩ | ⟨_, hlt⟩ := hprogress
    · exact ⟨Nat.le_refl _, fun _ late => absurd late (Bool.eq_false_iff.mp early)⟩
    · exact absurd ht (raise_fault_ne_nil _ _)
    · exact ⟨hlt.le, fun _ _ => hlt⟩
  · obtain ⟨eseq, eph, eidx, ew, er, _, _⟩ := h.busy he hb
    have e : stepsLeft t = stepsLeft s := by simp only [stepsLeft, eseq, eph, eidx, ew, er]
    exact ⟨e.le, fun hturn => absurd hturn he⟩

/-- `NOW` less `DEADLINE` and less the TICK steps taken, mod 2^32: what stays the same throughout a transaction. -/
def Run.tickOffset (r : Run) (n : Nat) : Tick := (r.state n).now - (r.state n).deadline - BitVec.ofNat 32 (r.ticks n)

/-- A step of a running transaction keeps the offset: `NOW` and the count of TICK steps advance together. -/
theorem Run.tickOffset_succ (r : Run) {n : Nat} (hb : isBusy (r.state n) = true) :
    r.tickOffset (n + 1) = r.tickOffset n := by
  obtain ⟨edl, enow⟩ := (r.moves n).clock hb (r.safe (n + 1))
  simp only [Run.tickOffset, edl, enow, Run.ticks]
  split
  · rw [BitVec.ofNat_add, show BitVec.ofNat 32 1 = (1 : Tick) from rfl]
    ring
  · simp

/-- The comparator in the TICK steps of the run, counted from some start (R188). -/
theorem Run.timedOut_iff_ticks (r : Run) (n : Nat) :
    timedOut (r.state n) = true ↔
      0 < ((r.tickOffset n).toNat + r.ticks n) % 2 ^ 32 ∧ ((r.tickOffset n).toNat + r.ticks n) % 2 ^ 32 < 2 ^ 31 := by
  have e : (r.state n).now - (r.state n).deadline = r.tickOffset n + BitVec.ofNat 32 (r.ticks n) :=
    (BitVec.sub_add_cancel _ _).symm
  rw [timedOut_iff, e, BitVec.toNat_add, BitVec.toNat_ofNat, Nat.add_mod_mod]

/-- A weakly fair run takes any number of TICK steps. -/
theorem Run.WeaklyFair.ticks_unbounded {r : Run} (hr : r.WeaklyFair) (c : Nat) : ∃ m, c ≤ r.ticks m := by
  induction c with
  | zero => exact ⟨0, Nat.zero_le _⟩
  | succ c ih =>
    obtain ⟨m, hm⟩ := ih
    obtain ⟨k, hk, ht⟩ := hr.tick m
    refine ⟨k + 1, ?_⟩
    have := r.ticks_mono hk
    rw [Run.ticks, if_pos ht]
    omega

/-- The last ENGINE step before the `k`-th is the `i`-th. -/
structure Run.LastEngine (r : Run) (i k : Nat) : Prop where
  before : i < k
  engine : r.turn i = .engine
  last : ∀ j, i < j → j < k → r.turn j ≠ .engine

/-- An ENGINE step is the last one at the state it leads to. -/
theorem Run.LastEngine.self {r : Run} {k : Nat} (h : r.turn k = .engine) : r.LastEngine k (k + 1) :=
  ⟨Nat.lt_succ_self k, h, fun _ _ _ => by omega⟩

/-- And it stays the last one past another agent's step. -/
theorem Run.LastEngine.succ {r : Run} {i k : Nat} (h : r.LastEngine i k) (hk : r.turn k ≠ .engine) :
    r.LastEngine i (k + 1) where
  before := Nat.lt_succ_of_lt h.before
  engine := h.engine
  last j hij hj := by
    rcases Nat.lt_succ_iff_lt_or_eq.mp hj with hlt | rfl
    · exact h.last j hij hlt
    · exact hk

section

variable {r : Run} (hr : r.Fair) {n : Nat} (busy : ∀ m, n ≤ m → isBusy (r.state m) = true)

include busy in
/-- The offset stays throughout the transaction. -/
theorem Run.tickOffset_eq {m : Nat} (hm : n ≤ m) : r.tickOffset m = r.tickOffset n := by
  induction m, hm using Nat.le_induction with
  | base => rfl
  | succ m hm ih => exact (r.tickOffset_succ (busy m hm)).trans ih

include hr busy in
/-- Were no poll made after the deadline, the ENGINE steps could not get past a multiple of 2^32 ticks: the next one
falls inside the `2^31 - 1` ticks after it, in which the deadline has passed (R188, R190). -/
theorem Run.Fair.ticks_bounded (early : ∀ m, n ≤ m → r.turn m = .engine → timedOut (r.state m) = false)
    {i q : Nat} (hi : n ≤ i) (he : r.turn i = .engine) (hq : (r.tickOffset n).toNat + r.ticks i ≤ 2 ^ 32 * q)
    {k : Nat} (hk : i + 1 ≤ k) :
    ∃ j, n ≤ j ∧ r.LastEngine j k ∧ (r.tickOffset n).toNat + r.ticks j ≤ 2 ^ 32 * q := by
  induction k, hk using Nat.le_induction with
  | base => exact ⟨i, hi, .self he, hq⟩
  | succ k hk ih =>
    obtain ⟨j, hj, hlast, hbound⟩ := ih
    by_cases hturn : r.turn k = .engine
    · have hnk : n ≤ k := hj.trans hlast.before.le
      have hgap := hr.polled j k hlast.before hlast.engine hturn hlast.last fun m hm _ => busy m (hj.trans hm)
      have hearly := Bool.eq_false_iff.mp (early k hnk hturn)
      rw [ne_eq, r.timedOut_iff_ticks, Run.tickOffset_eq busy hnk] at hearly
      exact ⟨k, hnk, .self hturn, by omega⟩
    · exact ⟨j, hj, hlast.succ hturn, hbound⟩

include hr busy in
/-- A transaction that goes on forever is polled after its deadline. -/
theorem Run.Fair.polled_late : ∃ m, n ≤ m ∧ r.turn m = .engine ∧ timedOut (r.state m) = true := by
  by_contra hnone
  have early : ∀ m, n ≤ m → r.turn m = .engine → timedOut (r.state m) = false := fun m hm he =>
    Bool.eq_false_iff.mpr fun late => hnone ⟨m, hm, he, late⟩
  obtain ⟨i, hi, he⟩ := hr.weakly.engine n busy
  have hstart : (r.tickOffset n).toNat + r.ticks i ≤ 2 ^ 32 * ((r.tickOffset n).toNat + r.ticks i) := by omega
  obtain ⟨m, hm⟩ := hr.weakly.ticks_unbounded (2 ^ 32 * ((r.tickOffset n).toNat + r.ticks i) + 1)
  obtain ⟨k, hk, hek⟩ := hr.weakly.engine (max m i) fun j hj => busy j (by omega)
  obtain ⟨j, _, hlast, hbound⟩ := hr.ticks_bounded busy early hi he hstart (k := k + 1) (by omega)
  have hjk : k ≤ j := Nat.le_of_not_lt fun hlt => hlast.last k hlt (Nat.lt_succ_self k) hek
  have := r.ticks_mono (show m ≤ j by omega)
  omega

include busy in
/-- No step of the transaction brings its end further away. -/
theorem Run.stepsLeft_antitone (hq : ∀ m, SequencerInv (r.state m)) {m : Nat} (hm : n ≤ m) :
    stepsLeft (r.state m) ≤ stepsLeft (r.state n) := by
  induction m, hm using Nat.le_induction with
  | base => exact Nat.le_refl _
  | succ m hm ih => exact ((r.moves m).stepsLeft_progress (hq m) (busy m hm) (r.safe (m + 1))).1.trans ih

end

/-- Settles O60: by induction on the micro-states left, of which a poll after the deadline leaves fewer. -/
theorem everyTransactionEndsOnAFairRun : Obligations.EveryTransactionEndsOnAFairRun := by
  intro r hr hq0 n
  have hq (m : Nat) : SequencerInv (r.state m) := sequencerInv_kept.run r hq0 m
  induction hk : stepsLeft (r.state n) using Nat.strong_induction_on generalizing n with
  | _ k ih =>
    by_contra hnever
    have busy : ∀ m, n ≤ m → isBusy (r.state m) = true := fun m hm =>
      isBusy_eq_true_iff.mpr fun h0 => hnever ⟨m, hm, h0⟩
    obtain ⟨m, hm, he, late⟩ := hr.polled_late busy
    have hle := Run.stepsLeft_antitone busy hq hm
    have hlt := ((r.moves m).stepsLeft_progress (hq m) (busy m hm) (r.safe (m + 1))).2 he late
    obtain ⟨u, hu, h0⟩ := ih _ (by omega) (m + 1) rfl
    exact hnever ⟨u, by omega, h0⟩

end Sys2Proof.Machine
